-- ==== Sys2Proof/Word.lean ====
section
/-! DEFINITION. The words of the block: bytes, host words and their fields (00_scope.md R11, 30_encoding.md R301), and
the level of a line (00_scope.md R14). -/

namespace Sys2Proof

/-- A framebuffer, opcode or payload byte (R11). -/
abbrev Byte := BitVec 8

/-- A coordinate, a width, a height, or the VALUE of a response (R11, R302). -/
abbrev Half := BitVec 16

/-- The OP field of a host word (R301). -/
abbrev OpCode := BitVec 4

/-- One 40-bit host word (R301). -/
abbrev HostWord := BitVec 40

/-- The level of a line (R14). -/
inductive Level where
  | low
  | high
deriving DecidableEq, Repr

end Sys2Proof
end

