-- ==== Sys2Proof/Config.lean ====
section
/-! DEFINITION. What is fixed for an instance: the panel profile TARGET (00_scope.md R8, R9), which holds every literal
of the wire protocol, and the free values, which have no body. The instance parameters PAD_VALUE, BUSY_TIMEOUT and FB_CAPACITY (R10) are fields of State, so that every
statement covers all their values. -/

namespace Sys2Proof

/-- The two planes of the panel's RAM (42_panel_commands.md R511, R512). -/
inductive Plane where
  | pri
  | sec
deriving DecidableEq, Repr

/-- A panel profile (R8). One record of every literal of the wire protocol: opcodes (30_encoding.md R308), payloads,
delays, OFFSET_Y and VIRTUAL_Y, so that a corrected literal changes configuration and not semantics (R9). -/
structure Profile where
  opDrvOutCtrl : Byte
  opDeepSleep : Byte
  opDataEntry : Byte
  opSwReset : Byte
  opMasterAct : Byte
  opUpdSeq : Byte
  opWriteRamPri : Byte
  opWriteRamSec : Byte
  opRamXWin : Byte
  opRamYWin : Byte
  opRamXPtr : Byte
  opRamYPtr : Byte
  offsetY : Nat
  virtualY : Nat
  drvOut : List Byte
  dataEntry : List Byte
  ramXWin : List Byte
  ramYWin : List Byte
  lutLoadMode : Byte
  fullRefreshMode : Byte
  deepSleepMode : List Byte
  ramXPtr : List Byte
  ramYPtr : List Byte
  planes : List Plane
  tRstLow : Nat
  tRstHigh : Nat
  tPollShort : Nat
  tPollLong : Nat
  panelW : Nat
  panelH : Nat
deriving DecidableEq, Repr

/-- The opcode that writes a plane's RAM. -/
def Profile.planeOpcode (p : Profile) : Plane → Byte
  | .pri => p.opWriteRamPri
  | .sec => p.opWriteRamSec

namespace Config

/-- The profile TARGET, hardwired (R8, R104). PLANES is [0x24, 0x26] in that order. RAM_Y_PTR is the spec's own choice (92_eei_decisions.md D14). -/
def target : Profile where
  opDrvOutCtrl := 0x01
  opDeepSleep := 0x10
  opDataEntry := 0x11
  opSwReset := 0x12
  opMasterAct := 0x20
  opUpdSeq := 0x22
  opWriteRamPri := 0x24
  opWriteRamSec := 0x26
  opRamXWin := 0x44
  opRamYWin := 0x45
  opRamXPtr := 0x4E
  opRamYPtr := 0x4F
  offsetY := 1
  virtualY := 22
  drvOut := [0x27, 0x01, 0x00]
  dataEntry := [0x01]
  ramXWin := [0x00, 0x18]
  ramYWin := [0x27, 0x01, 0x00, 0x00]
  lutLoadMode := 0xB1
  fullRefreshMode := 0xC7
  deepSleepMode := [0x01]
  ramXPtr := [0x00]
  ramYPtr := [0x27, 0x01]
  planes := [.pri, .sec]
  tRstLow := 10
  tRstHigh := 10
  tPollShort := 10
  tPollLong := 50
  panelW := 296
  panelH := 128

/-- FB_INIT (R10, R106): the byte at address `a` of the framebuffer contents drawn as free draw number `draw`.
A free value: nothing constrains it (log entry 3). -/
opaque fbInit (draw a : Nat) : Byte

/-- The BUSY level of free draw number `draw`, true for HIGH (R132). A free value (log entry 4). -/
opaque busyHigh (draw : Nat) : Bool

/-- How many bytes beyond 4736 the platform can allocate. A free value (log entry 5). -/
opaque fbSpare : Nat

/-- FB_CAPACITY at power-on: open, at least 4736 bytes (R10, 92_eei_decisions.md D18). -/
def fbCapacity : Nat := fbSpare + 4736

end Config

end Sys2Proof
end

