-- ==== Sys2Proof/Syntax.lean ====
section
/-! DEFINITION. The instructions: one constructor per row of spec/opcode_table.json, the nine host rows
(30_encoding.md R303, R304) and the twelve wire rows (R308). -/

namespace Sys2Proof

/-- The two forms of UPD_SEQ (42_panel_commands.md R507): its payload byte is chosen by the step of the refresh. -/
inductive UpdMode where
  | loadLut      -- LUT_LOAD_MODE, step 8
  | fullRefresh  -- FULL_REFRESH_MODE, step 11
deriving DecidableEq, Repr

/-- An instruction. A field of the host word that an operation does not use is no part of it (R304). -/
inductive Instr where
  | init (w h : Half)
  | clear
  | setpx (x y : Half) (dark : Bool)
  | getpx (x y : Half)
  | width
  | height
  | refresh
  | teardown
  | reservedHostWord (w : HostWord)
  | drvOutCtrl
  | deepSleep
  | dataEntry
  | swReset
  | masterAct
  | updSeq (mode : UpdMode)
  | writeRamPri
  | writeRamSec
  | ramXWin
  | ramYWin
  | ramXPtr
  | ramYPtr
deriving DecidableEq, Repr

/-- The eight host operations and the reserved host word, as against the wire commands (R314). -/
def Instr.isHost : Instr → Bool
  | .init _ _ => true
  | .clear => true
  | .setpx _ _ _ => true
  | .getpx _ _ => true
  | .width => true
  | .height => true
  | .refresh => true
  | .teardown => true
  | .reservedHostWord _ => true
  | .drvOutCtrl => false
  | .deepSleep => false
  | .dataEntry => false
  | .swReset => false
  | .masterAct => false
  | .updSeq _ => false
  | .writeRamPri => false
  | .writeRamSec => false
  | .ramXWin => false
  | .ramYWin => false
  | .ramXPtr => false
  | .ramYPtr => false

end Sys2Proof
end

