-- ==== Sys2Proof/WellFormed.lean ====
section
/-! DEFINITION. Well-formed instructions. Every operand of every operation is a field the host word holds whole, so the
one check is that a reserved host word is reserved (30_encoding.md R304). What INIT and the pixel operations check of
their operands is their meaning and gives a status (R602), not ill-formedness. -/

namespace Sys2Proof

/-- OP is 0x0 or in 0x9 to 0xF, or RSV is not 000 (R304). -/
def HostWord.isReserved (w : HostWord) : Bool :=
  let op := (w.extractLsb' 0 4).toNat
  op == 0 || decide (9 ≤ op) || w.extractLsb' 5 3 != 0

/-- The instruction can be spelled by a word. -/
def Instr.wellFormed : Instr → Bool
  | .init _ _ => true
  | .clear => true
  | .setpx _ _ _ => true
  | .getpx _ _ => true
  | .width => true
  | .height => true
  | .refresh => true
  | .teardown => true
  | .reservedHostWord w => HostWord.isReserved w
  | .drvOutCtrl => true
  | .deepSleep => true
  | .dataEntry => true
  | .swReset => true
  | .masterAct => true
  | .updSeq _ => true
  | .writeRamPri => true
  | .writeRamSec => true
  | .ramXWin => true
  | .ramYWin => true
  | .ramXPtr => true
  | .ramYPtr => true

end Sys2Proof
end

