-- ==== Sys2Proof/Decode.lean ====
section
/-! DEFINITION. Decoding and encoding (30_encoding.md). A host word is decoded whole (R301): every word is an
instruction, the reserved ones included (R304, R608). A wire frame is its opcode byte and its payload bytes (R306); the
data bytes of the two frame writes come from the framebuffer and are no part of the instruction (R309). -/

namespace Sys2Proof

/-! ### Fields of the host word (R301, R305) -/

/-- OP = HW[3:0]. -/
def HostWord.op (w : HostWord) : OpCode := w.extractLsb' 0 4

/-- DARK = HW[4]. -/
def HostWord.dark (w : HostWord) : Bool := w.getLsbD 4

/-- RSV = HW[7:5]. -/
def HostWord.rsv (w : HostWord) : BitVec 3 := w.extractLsb' 5 3

/-- X = HW[23:8]. -/
def HostWord.x (w : HostWord) : Half := w.extractLsb' 8 16

/-- Y = HW[39:24]. -/
def HostWord.y (w : HostWord) : Half := w.extractLsb' 24 16

/-! ### Operation codes (R303) -/

def opInit : OpCode := 0x1
def opClear : OpCode := 0x2
def opSetpx : OpCode := 0x3
def opGetpx : OpCode := 0x4
def opWidth : OpCode := 0x5
def opHeight : OpCode := 0x6
def opRefresh : OpCode := 0x7
def opTeardown : OpCode := 0x8

/-- The OP field of a host word's instruction; none for a wire command. -/
def opOf : Instr → Option OpCode
  | .init _ _ => some opInit
  | .clear => some opClear
  | .setpx _ _ _ => some opSetpx
  | .getpx _ _ => some opGetpx
  | .width => some opWidth
  | .height => some opHeight
  | .refresh => some opRefresh
  | .teardown => some opTeardown
  | .reservedHostWord w => some w.op
  | .drvOutCtrl => none
  | .deepSleep => none
  | .dataEntry => none
  | .swReset => none
  | .masterAct => none
  | .updSeq _ => none
  | .writeRamPri => none
  | .writeRamSec => none
  | .ramXWin => none
  | .ramYWin => none
  | .ramXPtr => none
  | .ramYPtr => none

/-- The instruction a host word spells (R303, R304). -/
def decodeHost (w : HostWord) : Instr :=
  if w.rsv ≠ 0 then .reservedHostWord w
  else if w.op = opInit then .init w.x w.y
  else if w.op = opClear then .clear
  else if w.op = opSetpx then .setpx w.x w.y w.dark
  else if w.op = opGetpx then .getpx w.x w.y
  else if w.op = opWidth then .width
  else if w.op = opHeight then .height
  else if w.op = opRefresh then .refresh
  else if w.op = opTeardown then .teardown
  else .reservedHostWord w

/-! ### Wire commands (R308) -/

/-- Why a list of bytes is no wire frame of the block. -/
inductive Reject where
  | emptyFrame
  | noSuchOpcode (op : Byte)
  | payloadMismatch (op : Byte)
deriving DecidableEq, Repr

/-- The payload byte of UPD_SEQ (42_panel_commands.md R507). -/
def updModeByte : UpdMode → Byte
  | .loadLut => Config.target.lutLoadMode
  | .fullRefresh => Config.target.fullRefreshMode

/-- The opcode and the fixed payload of a wire command (R308, R309); none for a host operation. -/
def wireBytes : Instr → Option (Byte × List Byte)
  | .init _ _ => none
  | .clear => none
  | .setpx _ _ _ => none
  | .getpx _ _ => none
  | .width => none
  | .height => none
  | .refresh => none
  | .teardown => none
  | .reservedHostWord _ => none
  | .drvOutCtrl => some (Config.target.opDrvOutCtrl, Config.target.drvOut)
  | .deepSleep => some (Config.target.opDeepSleep, Config.target.deepSleepMode)
  | .dataEntry => some (Config.target.opDataEntry, Config.target.dataEntry)
  | .swReset => some (Config.target.opSwReset, [])
  | .masterAct => some (Config.target.opMasterAct, [])
  | .updSeq m => some (Config.target.opUpdSeq, [updModeByte m])
  | .writeRamPri => some (Config.target.opWriteRamPri, [])
  | .writeRamSec => some (Config.target.opWriteRamSec, [])
  | .ramXWin => some (Config.target.opRamXWin, Config.target.ramXWin)
  | .ramYWin => some (Config.target.opRamYWin, Config.target.ramYWin)
  | .ramXPtr => some (Config.target.opRamXPtr, Config.target.ramXPtr)
  | .ramYPtr => some (Config.target.opRamYPtr, Config.target.ramYPtr)

/-- The wire command of an opcode byte (R308). Opcode 0x22 has two forms (R507): alone it stands for the first,
LUT_LOAD_MODE (log entry 9). -/
def decodeOpcode (op : Byte) : Option Instr :=
  if op = Config.target.opDrvOutCtrl then some .drvOutCtrl
  else if op = Config.target.opDeepSleep then some .deepSleep
  else if op = Config.target.opDataEntry then some .dataEntry
  else if op = Config.target.opSwReset then some .swReset
  else if op = Config.target.opMasterAct then some .masterAct
  else if op = Config.target.opUpdSeq then some (.updSeq .loadLut)
  else if op = Config.target.opWriteRamPri then some .writeRamPri
  else if op = Config.target.opWriteRamSec then some .writeRamSec
  else if op = Config.target.opRamXWin then some .ramXWin
  else if op = Config.target.opRamYWin then some .ramYWin
  else if op = Config.target.opRamXPtr then some .ramXPtr
  else if op = Config.target.opRamYPtr then some .ramYPtr
  else none

/-- The wire command a frame's bytes spell: opcode, then exactly the payload the block gives it (R308, R310). -/
def decodeWire : List Byte → Except Reject Instr
  | [] => .error .emptyFrame
  | op :: payload =>
    match decodeOpcode op with
    | none => .error (.noSuchOpcode op)
    | some i =>
      if wireBytes i = some (op, payload) then .ok i
      else if wireBytes (.updSeq .fullRefresh) = some (op, payload) then .ok (.updSeq .fullRefresh)
      else .error (.payloadMismatch op)

/-! ### Both formats -/

/-- An encoded instruction: a host word, or the bytes of a wire frame. -/
inductive Encoded where
  | host (w : HostWord)
  | wire (bytes : List Byte)
deriving DecidableEq, Repr

/-- The decoder: total, rejecting by name. -/
def decode : Encoded → Except Reject Instr
  | .host w => .ok (decodeHost w)
  | .wire bytes => decodeWire bytes

/-- `Y << 24 | X << 8 | RSV << 5 | DARK << 4 | OP` with RSV = 000 (R301). -/
def hostWord (op : OpCode) (x y : Half) (dark : Bool) : HostWord :=
  (y ++ x ++ (0 : BitVec 3) ++ BitVec.ofBool dark ++ op : BitVec (16 + 16 + 3 + 1 + 4))

/-- The encoder; a field an operation does not use is 0. -/
def encode : Instr → Encoded
  | .init w h => .host (hostWord opInit w h false)
  | .clear => .host (hostWord opClear 0 0 false)
  | .setpx x y dark => .host (hostWord opSetpx x y dark)
  | .getpx x y => .host (hostWord opGetpx x y false)
  | .width => .host (hostWord opWidth 0 0 false)
  | .height => .host (hostWord opHeight 0 0 false)
  | .refresh => .host (hostWord opRefresh 0 0 false)
  | .teardown => .host (hostWord opTeardown 0 0 false)
  | .reservedHostWord w => .host w
  | .drvOutCtrl => .wire (Config.target.opDrvOutCtrl :: Config.target.drvOut)
  | .deepSleep => .wire (Config.target.opDeepSleep :: Config.target.deepSleepMode)
  | .dataEntry => .wire (Config.target.opDataEntry :: Config.target.dataEntry)
  | .swReset => .wire [Config.target.opSwReset]
  | .masterAct => .wire [Config.target.opMasterAct]
  | .updSeq m => .wire [Config.target.opUpdSeq, updModeByte m]
  | .writeRamPri => .wire [Config.target.opWriteRamPri]
  | .writeRamSec => .wire [Config.target.opWriteRamSec]
  | .ramXWin => .wire (Config.target.opRamXWin :: Config.target.ramXWin)
  | .ramYWin => .wire (Config.target.opRamYWin :: Config.target.ramYWin)
  | .ramXPtr => .wire (Config.target.opRamXPtr :: Config.target.ramXPtr)
  | .ramYPtr => .wire (Config.target.opRamYPtr :: Config.target.ramYPtr)

/-- What the table's word stands for: an opcode byte of the wire if it is one byte and one of the twelve opcodes, else
a host word (log entry 9). -/
def tableWord (nbits w : Nat) : Encoded :=
  if nbits ≤ 8 then
    match decodeOpcode (BitVec.ofNat 8 w) with
    | some i => encode i
    | none => .host (BitVec.ofNat 40 w)
  else .host (BitVec.ofNat 40 w)

/-- The instruction the decoder reads from a word of spec/opcode_table.json. -/
def decodeTableWord (nbits w : Nat) : Option Instr :=
  match decode (tableWord nbits w) with
  | .ok i => some i
  | .error _ => none

end Sys2Proof
end

