-- ==== Sys2Proof/Machine/State.lean ====
section
/-! DEFINITION. The state of the block (10_state.md R102: the record is complete), as plain data, and its value after
power-on (R118). -/

namespace Sys2Proof.Machine

/-! ### Pins (R109) -/

/-- The five output roles: data, clock, chip-select, command/data-select, panel reset. -/
inductive OutPin where
  | din
  | clk
  | cs
  | dc
  | rst
deriving DecidableEq, Repr

/-- The six roles: the outputs and BUSY, the one input. -/
inductive Pin where
  | out (p : OutPin)
  | busy
deriving DecidableEq, Repr

/-- The direction a pin was last configured to (R107). -/
inductive Dir where
  | unconfigured
  | output
  | input
deriving DecidableEq, Repr

/-- DIR (R107). -/
structure Dirs where
  din : Dir
  clk : Dir
  cs : Dir
  dc : Dir
  rst : Dir
  busy : Dir
deriving DecidableEq, Repr

/-- LVL (R108): the level last written to each output, `none` for unknown. -/
structure Lines where
  din : Option Level
  clk : Option Level
  cs : Option Level
  dc : Option Level
  rst : Option Level
deriving DecidableEq, Repr

/-! ### Configuration, lifecycle, memory -/

/-- The fields of CFG that are not profile constants (R103). Before INIT the geometry is 0 × 0 (log entry 1). -/
structure Cfg where
  w : Half
  h : Half
  hb : BitVec 13
  padValue : Byte
  busyTimeout : Option Nat
  fbCapacity : Nat
deriving DecidableEq, Repr

/-- LIFE (R105). -/
inductive Life where
  | unbound
  | ready
  | refreshing
  | released
deriving DecidableEq, Repr

/-- FB (R106, 20_memory.md R201): address and byte pairs, addresses strictly rising, no entry of 0x00. An address not
listed holds 0x00; INIT lists every byte of its draw that is not 0x00 (log entry 2). -/
abbrev Memory := List Host.Cell

/-! ### The sequencer and the observation -/

/-- A micro-op (00_scope.md R16). -/
inductive MicroOp where
  | w (p : OutPin) (l : Level)
  | d (ms : Nat)
  | b (iv : Nat)
deriving DecidableEq, Repr

/-- A status (60_exceptions.md R702). Code 7 has no name: no response carries it. -/
inductive Status where
  | ok
  | outOfRange
  | panelUnresponsive
  | invalidGeometry
  | illegalOp
  | wrongState
  | hostConflict
deriving DecidableEq, Repr

/-- A TRACE event (R131). -/
inductive Event where
  | cfg (p : Pin) (d : Dir)
  | wr (p : OutPin) (l : Level)
  | rd (l : Level)
  | dly (ms : Nat)
  | resp (op : OpCode) (st : Status) (value : Half)
deriving DecidableEq, Repr

/-- What the outside does at the host port in one step (44_host_interface.md R601, 70_reset_and_hazards.md R801). -/
inductive Input where
  | quiet
  | word (w : HostWord)
  | powerCycle
deriving DecidableEq, Repr

/-- The state. The last four fields are the model's own: what the outside will do (log entries 4 and 6), the number of
free draws made (log entry 4), and a wire frame to be emitted whole by the next step (log entry 8). -/
structure State where
  cfg : Cfg
  life : Life
  fb : Memory
  dir : Dirs
  lvl : Lines
  upc : Nat
  prog : List MicroOp
  elapsed : Nat
  faultHostConflict : Bool
  trace : List Event
  inputs : List Input
  busyIn : List Level
  draws : Nat
  issue : Option (List Byte)
deriving DecidableEq, Repr

/-- Why a step stops with a fault. No rule of the spec describes one: each stands where the spec gives no effect, and is
raised only in states no run reaches (every state with the invariant of Safety.lean steps). All are safe. -/
inductive Fault where
  /-- SETPX and GETPX: the address lies outside FB, which only a CFG.HB other than CFG.H / 8 can bring about (R402). -/
  | fbAddressAbsent (a : Nat)
  /-- The sequencer: UPC lies beyond the end of PROG (R112 bounds it). -/
  | upcOutOfProgram
  /-- A pin write: the pin is not configured as an output (R15 writes output pins only). -/
  | pinNotOutput (p : OutPin)
  /-- A BUSY read: the pin is not configured as an input (R107). -/
  | busyNotInput
  /-- A wire command executed while no refresh runs: only the sequencer emits one (30_encoding.md R314). -/
  | wireOutsideRefresh
  /-- The frame to be issued is none of the block's (R310). -/
  | noSuchWireFrame
deriving DecidableEq, Repr

/-- Why a step is refused. -/
inductive Refusal where
  /-- An arm of `exec` without a meaning; no arm is. Safe. -/
  | notModelled (mnemonic : String)
deriving DecidableEq, Repr

/-- All six pins unconfigured (R107, R118). -/
def Dirs.unclaimed : Dirs :=
  ⟨.unconfigured, .unconfigured, .unconfigured, .unconfigured, .unconfigured, .unconfigured⟩

/-- The directions INIT sets (R107). -/
def Dirs.claimed : Dirs := ⟨.output, .output, .output, .output, .output, .input⟩

/-- Every level unknown (R108). -/
def Lines.unknown : Lines := ⟨none, none, none, none, none⟩

/-- CFG at power-on: no geometry (log entry 1), the instance parameters at their defaults (R103, R118). -/
def Cfg.reset : Cfg where
  w := 0
  h := 0
  hb := 0
  padValue := 0x00
  busyTimeout := none
  fbCapacity := Config.fbCapacity

/-- The block after power-on (R118, 70_reset_and_hazards.md R801). -/
def State.reset : State where
  cfg := Cfg.reset
  life := .unbound
  fb := []
  dir := Dirs.unclaimed
  lvl := Lines.unknown
  upc := 0
  prog := []
  elapsed := 0
  faultHostConflict := false
  trace := []
  inputs := []
  busyIn := []
  draws := 0
  issue := none

end Sys2Proof.Machine
end

