-- ==== Sys2Proof/Machine/Flags.lean ====
section
/-! DEFINITION. Status codes, lifecycle codes and the sticky fault bit. The block has no flag register (10_state.md
R116). -/

namespace Sys2Proof.Machine

/-- The STATUS field of a response (60_exceptions.md R702). -/
def statusCode : Status → BitVec 3
  | .ok => 0
  | .outOfRange => 1
  | .panelUnresponsive => 2
  | .invalidGeometry => 3
  | .illegalOp => 4
  | .wrongState => 5
  | .hostConflict => 6

/-- The 2-bit encoding of LIFE (R105). -/
def lifeCode : Life → BitVec 2
  | .unbound => 0
  | .ready => 1
  | .refreshing => 2
  | .released => 3

/-- `FAULT <- FAULT ∪ {HOST_CONFLICT}` (R115, R708). -/
def setHostConflict (s : State) : State := { s with faultHostConflict := true }

end Sys2Proof.Machine
end

