-- ==== Sys2Proof/Machine/Operands.lean ====
section
/-! DEFINITION. Operands: pixel coordinates and their framebuffer byte and bit (40_pixelbuffer.md R401, R402), INIT's
geometry (44_host_interface.md R603), and the levels and bits of bytes (00_scope.md R13, R14). -/

namespace Sys2Proof.Machine

/-! ### Pixels -/

/-- `inRange(x, y)` (R402): unsigned comparisons. -/
def inRange (c : Cfg) (x y : Half) : Bool := decide (x.toNat < c.w.toNat) && decide (y.toNat < c.h.toNat)

/-- `addr(x, y) = x * HB + (y >> 3)` (R402, 20_memory.md R202). -/
def addr (c : Cfg) (x y : Half) : Nat := x.toNat * c.hb.toNat + y.toNat / 8

/-- `bitk(y) = y & 7` (R402). -/
def bitk (y : Half) : Nat := y.toNat % 8

/-- The byte with bit `k` set or cleared (R405). -/
def withPixel (b : Byte) (k : Nat) (dark : Bool) : Byte :=
  if dark then b ||| (1#8 <<< k) else b &&& ~~~(1#8 <<< k)

/-- `zext_16(b[k])` (R406). -/
def pixelValue (b : Byte) (k : Nat) : Half := if b.getLsbD k then 1 else 0

/-- The number of bytes of FB, `CFG.W * CFG.HB` (R201, R401). -/
def fbSize (c : Cfg) : Nat := c.w.toNat * c.hb.toNat

/-! ### Geometry -/

/-- `h / 8` as INIT stores it, 13 bits (R103). -/
def groupsOf (h : Half) : BitVec 13 := BitVec.ofNat 13 (h.toNat / 8)

/-- The checks of INIT (R603). -/
def geometryOk (capacity : Nat) (w h : Half) : Bool :=
  w != 0 && h != 0 && h.toNat % 8 == 0
    && decide (Config.target.offsetY + h.toNat / 8 ≤ Config.target.virtualY)
    && decide (w.toNat * (h.toNat / 8) ≤ capacity)

/-! ### Levels and bits -/

/-- `lvl(bit)` (R14). -/
def lvlOf (bit : Bool) : Level := if bit then .high else .low

/-- `bitrev8` (R13): bit `i` of the result is bit `7 - i`. -/
def bitrev8 (b : Byte) : Byte := b.reverse

/-- `wire(s) = bitrev8(~s)` (41_seriallink.md R461): how a frame byte reads on the wire. -/
def wireOf (s : Byte) : Byte := bitrev8 (~~~s)

end Sys2Proof.Machine
end

