-- ==== Sys2Proof/Machine/Ops.lean ====
section
/-! DEFINITION. The primitives every rule's pseudocode is written in (00_scope.md R15): the framebuffer's bytes, the pin
and delay calls with their TRACE events (10_state.md R131), responses, and the dispatch every host word passes through
(44_host_interface.md R602). -/

namespace Sys2Proof.Machine

/-- An outcome of this machine. -/
abbrev Result := Host.Outcome State Fault Refusal

/-- Go on with a next state; a stop stays. -/
def andThen (r : Result) (f : State → Result) : Result :=
  match r with
  | .next s => f s
  | .fault e => .fault e
  | .refused e => .refused e

/-! ### The framebuffer (20_memory.md R201) -/

/-- The byte at `a`; an address not listed holds 0x00. -/
def fbRead (m : Memory) (a : Nat) : Byte :=
  match m with
  | [] => 0
  | (b, v) :: rest => if b = a then v else fbRead rest a

/-- The memory with the entry of `a` taken out. -/
def fbErase (m : Memory) (a : Nat) : Memory := m.filter fun c => c.1 != a

/-- The memory with the entry of `a` put in its place. -/
def fbInsert (m : Memory) (a : Nat) (v : Byte) : Memory :=
  match m with
  | [] => [(a, v)]
  | (b, u) :: rest =>
    if a < b then (a, v) :: (b, u) :: rest
    else if a = b then (a, v) :: rest
    else (b, u) :: fbInsert rest a v

/-- Write one byte; 0x00 is what an unlisted address holds, so writing it takes the entry out. -/
def fbWrite (m : Memory) (a : Nat) (v : Byte) : Memory :=
  if v = 0 then fbErase m a else fbInsert m a v

/-- FB_INIT as the memory of `n` bytes of free draw `draw` (R106, R603). -/
def fbDraw (draw n : Nat) : Memory :=
  ((List.range n).map fun a => (a, Config.fbInit draw a)).filter fun c => c.2 != 0

/-- `MemRead(a, 1)`: none outside FB. -/
def memRead (s : State) (a : Nat) : Option Byte := if a < fbSize s.cfg then some (fbRead s.fb a) else none

/-- `MemWrite(a, 1, v)` at an address of FB. -/
def memWrite (s : State) (a : Nat) (v : Byte) : State := { s with fb := fbWrite s.fb a v }

/-- The pixel (x, y) of a state: true for dark (20_memory.md R202, R207). -/
def pixelAt (s : State) (x y : Half) : Bool := (fbRead s.fb (addr s.cfg x y)).getLsbD (bitk y)

/-- `for a in 0 .. W*HB - 1: MemWrite(a, 1, 0x00)` (40_pixelbuffer.md R404): no byte is left listed. -/
def fbClear (s : State) : State := { s with fb := [] }

/-- The canonical form from address `lo` on: addresses at least `lo` and strictly rising, no entry 0x00. -/
def wfFrom (lo : Nat) : Memory → Bool
  | [] => true
  | (a, v) :: rest => decide (lo ≤ a) && v != 0 && wfFrom (a + 1) rest

/-- The canonical form of a memory. -/
def Memory.wf (m : Memory) : Bool := wfFrom 0 m

/-! ### Pins and delays -/

/-- The direction of a pin. -/
def dirOf (d : Dirs) : Pin → Dir
  | .out .din => d.din
  | .out .clk => d.clk
  | .out .cs => d.cs
  | .out .dc => d.dc
  | .out .rst => d.rst
  | .busy => d.busy

/-- DIR with one pin's direction changed. -/
def setDir (d : Dirs) (p : Pin) (v : Dir) : Dirs :=
  match p with
  | .out .din => { d with din := v }
  | .out .clk => { d with clk := v }
  | .out .cs => { d with cs := v }
  | .out .dc => { d with dc := v }
  | .out .rst => { d with rst := v }
  | .busy => { d with busy := v }

/-- The level of a line. -/
def lineOf (l : Lines) : OutPin → Option Level
  | .din => l.din
  | .clk => l.clk
  | .cs => l.cs
  | .dc => l.dc
  | .rst => l.rst

/-- LVL with one line's level changed. -/
def setLine (l : Lines) (p : OutPin) (v : Option Level) : Lines :=
  match p with
  | .din => { l with din := v }
  | .clk => { l with clk := v }
  | .cs => { l with cs := v }
  | .dc => { l with dc := v }
  | .rst => { l with rst := v }

/-- One event appended to TRACE. -/
def record (e : Event) (s : State) : State := { s with trace := e :: s.trace }

/-- `PinConfigure(p, d)` (R15). -/
def pinConfigure (p : Pin) (d : Dir) (s : State) : State := record (.cfg p d) { s with dir := setDir s.dir p d }

/-- `PinWrite(p, l)` (R15), on a pin that is an output. -/
def pinWrite (p : OutPin) (l : Level) (s : State) : Result :=
  if dirOf s.dir (.out p) = .output then
    .next (record (.wr p l) { s with lvl := setLine s.lvl p (some l) })
  else .fault (.pinNotOutput p)

/-- `Delay(ms)` (R15): one event, no time (70_reset_and_hazards.md R813). -/
def delay (ms : Nat) (s : State) : State := record (.dly ms) s

/-- The level the next BUSY read returns: the panel's choice (R132), free where none is given. -/
def nextBusy (s : State) : Level :=
  match s.busyIn with
  | l :: _ => l
  | [] => lvlOf (Config.busyHigh s.draws)

/-- The state after `PinRead(BUSY)` (R15): the draw is used up, the read is recorded. -/
def busyRead (s : State) : State :=
  record (.rd (nextBusy s))
    { s with busyIn := s.busyIn.tail, draws := if s.busyIn.isEmpty then s.draws + 1 else s.draws }

/-- `upc <- upc + 1` (R112). -/
def advanceUpc (s : State) : State := { s with upc := s.upc + 1 }

/-! ### Responses and dispatch -/

/-- `respond(S, v)` (R15, R302): one `Resp` event. -/
def respond (op : OpCode) (st : Status) (v : Half) (s : State) : State := record (.resp op st v) s

/-- `raise S` (R15, 60_exceptions.md R702): the word is refused, VALUE 0, no other effect. This is the block's whole
error reporting: nothing is saved, no mode changes, no control is transferred (R701, R713), and there is no return
(R714). -/
def raise (op : OpCode) (st : Status) (s : State) : Result := .next (respond op st 0 s)

/-- A host word during a refresh (R708): FAULT is set, the word is refused. -/
def refuseConflict (op : OpCode) (s : State) : Result := raise op .hostConflict (setHostConflict s)

/-- `permitted(op, LIFE)` (R609) for the defined operations outside REFRESHING. -/
def permitted (op : OpCode) : Life → Bool
  | .unbound => op == opInit
  | .ready => op != opInit
  | .refreshing => false
  | .released => false

/-- The checks of R602 in their order (R712) for a word that spells an operation, then the operation. -/
def dispatch (op : OpCode) (body : State → Result) (s : State) : Result :=
  if s.life = .refreshing then refuseConflict op s
  else if permitted op s.life then body s
  else raise op .wrongState s

/-- Power-on (70_reset_and_hazards.md R801): every state element at its power-on value (R118). The instance parameters
stay, and so does what the outside will do and the count of draws (log entry 7). -/
def powerOn (s : State) : State :=
  { State.reset with
    cfg := { Cfg.reset with
      padValue := s.cfg.padValue, busyTimeout := s.cfg.busyTimeout, fbCapacity := s.cfg.fbCapacity }
    inputs := s.inputs
    busyIn := s.busyIn
    draws := s.draws }

end Sys2Proof.Machine
end

