-- ==== Sys2Proof/Machine/Serial.lean ====
section
/-! DEFINITION. The row stream (40_pixelbuffer.md R408) and the serializer's expansions into micro-ops
(41_seriallink.md R452 to R457). -/

namespace Sys2Proof.Machine

/-! ### Row stream -/

/-- `s(x, j)` (R408): a framebuffer byte of column `x`, or PAD_VALUE at a padding position. -/
def streamByte (c : Cfg) (m : Memory) (x j : Nat) : Byte :=
  if Config.target.offsetY ≤ j ∧ j < Config.target.offsetY + c.hb.toNat then
    fbRead m (x * c.hb.toNat + (j - Config.target.offsetY))
  else c.padValue

/-- `S(FB)` (R408): columns in increasing order, each over the virtual Y span. -/
def streamRows (c : Cfg) (m : Memory) : List Byte :=
  (List.range c.w.toNat).flatMap fun x => (List.range Config.target.virtualY).map fun j => streamByte c m x j

/-! ### Expansions -/

/-- `IDLE` (R452). -/
def idle : List MicroOp := [.w .din .high, .w .clk .high, .w .cs .high, .w .dc .high]

/-- `BIT(v)` (R453): DIN, then CLK LOW, then CLK HIGH. -/
def bitCell (v : Level) : List MicroOp := [.w .din v, .w .clk .low, .w .clk .high]

/-- `MSB(b)` (R454): bit 7 first, true polarity. -/
def msbFirst (b : Byte) : List MicroOp :=
  [7, 6, 5, 4, 3, 2, 1, 0].flatMap fun k => bitCell (lvlOf (b.getLsbD k))

/-- `LSBINV(b)` (R455): bit 0 first, inverted. -/
def lsbInverted (b : Byte) : List MicroOp :=
  [0, 1, 2, 3, 4, 5, 6, 7].flatMap fun k => bitCell (lvlOf (!b.getLsbD k))

/-- The opening of every frame: CS LOW, DC LOW, the opcode (R456, R457). -/
def frameHead (op : Byte) : List MicroOp := [.w .cs .low, .w .dc .low] ++ msbFirst op

/-- `SEND(op, d)` (R456). -/
def send (op : Byte) (d : List Byte) : List MicroOp :=
  frameHead op ++ d.flatMap (fun b => .w .dc .high :: msbFirst b) ++ [.w .cs .high]

/-- `STREAMFRAME(op)` over a row stream (R457). -/
def streamFrame (op : Byte) (rows : List Byte) : List MicroOp :=
  frameHead op ++ rows.flatMap (fun b => .w .dc .high :: lsbInverted b) ++ [.w .cs .high]

end Sys2Proof.Machine
end

