-- ==== Sys2Proof/Machine/Sequencer.lean ====
section
/-! DEFINITION. The refresh program (43_sequencer.md R551 to R566, R577) and its execution (R556, R567 to R574). -/

namespace Sys2Proof.Machine

/-! ### The steps of the protocol -/

/-- Step 1, power-on: no micro-op (R552). -/
def stepPowerOn : List MicroOp := []

/-- Step 2, idle setup (R553). -/
def stepIdleSetup : List MicroOp := idle ++ [.w .rst .high]

/-- Step 3, bus mode: no micro-op (R554). -/
def stepBusMode : List MicroOp := []

/-- Step 4, panel reset: the hardware pulse, then SW_RESET (R555, 42_panel_commands.md R502). -/
def stepPanelReset : List MicroOp :=
  [.w .rst .low, .d Config.target.tRstLow, .w .rst .high, .d Config.target.tRstHigh] ++ send Config.target.opSwReset []

/-- Steps 4b and 5b, ready barrier (R557, R577). -/
def shortBarrier : List MicroOp := [.b Config.target.tPollShort]

/-- Step 5, DRV_OUT_CTRL (R558). -/
def stepDriverOutput : List MicroOp := send Config.target.opDrvOutCtrl Config.target.drvOut

/-- Step 6, DATA_ENTRY (R559). -/
def stepDataEntry : List MicroOp := send Config.target.opDataEntry Config.target.dataEntry

/-- Step 7, RAM_X_WIN and RAM_Y_WIN (R560). -/
def stepRamWindow : List MicroOp :=
  send Config.target.opRamXWin Config.target.ramXWin ++ send Config.target.opRamYWin Config.target.ramYWin

/-- Step 8, UPD_SEQ with LUT_LOAD_MODE, MASTER_ACT (R561). -/
def stepUpdateSetup : List MicroOp :=
  send Config.target.opUpdSeq [Config.target.lutLoadMode] ++ send Config.target.opMasterAct []

/-- Steps 9 and 12, ready barrier (R562, R565). -/
def longBarrier : List MicroOp := [.b Config.target.tPollLong]

/-- Step 10, frame transfer: for each plane the pointers, then the frame (R563). -/
def stepFrameTransfer (rows : List Byte) : List MicroOp :=
  Config.target.planes.flatMap fun plane =>
    send Config.target.opRamXPtr Config.target.ramXPtr ++ send Config.target.opRamYPtr Config.target.ramYPtr ++
      streamFrame (Config.target.planeOpcode plane) rows

/-- Step 11, UPD_SEQ with FULL_REFRESH_MODE, MASTER_ACT (R564). -/
def stepUpdateTrigger : List MicroOp :=
  send Config.target.opUpdSeq [Config.target.fullRefreshMode] ++ send Config.target.opMasterAct []

/-- Step 13, DEEP_SLEEP (R566). -/
def stepSleep : List MicroOp := send Config.target.opDeepSleep Config.target.deepSleepMode

/-- The fifteen entries of the protocol in order (R551). -/
def protocolSteps (rows : List Byte) : List (List MicroOp) :=
  [stepPowerOn, stepIdleSetup, stepBusMode, stepPanelReset, shortBarrier, stepDriverOutput, shortBarrier,
   stepDataEntry, stepRamWindow, stepUpdateSetup, longBarrier, stepFrameTransfer rows, stepUpdateTrigger,
   longBarrier, stepSleep]

/-- `P(CFG, FB)` (R551). -/
def program (c : Cfg) (m : Memory) : List MicroOp := (protocolSteps (streamRows c m)).flatten

/-! ### Execution -/

/-- The end of a refresh, by its last micro-op (R568) or by a timeout (R569): REFRESH gets its response. -/
def endRefresh (st : Status) (s : State) : State :=
  { respond opRefresh st 0 s with life := .ready, upc := 0, prog := [], elapsed := 0 }

/-- A barrier that read LOW passes (R556). -/
def barrierPass (s : State) : State := advanceUpc { s with elapsed := 0 }

/-- A barrier that read HIGH waits and stays (R556). -/
def barrierPoll (iv : Nat) (s : State) : State :=
  let t := delay iv s
  { t with elapsed := t.elapsed + iv }

/-- A barrier that read HIGH has waited long enough (R556, R569). -/
def timedOut (s : State) : Bool :=
  match s.cfg.busyTimeout with
  | none => false
  | some t => decide (t ≤ s.elapsed)

/-- The ready barrier `B(iv)` (R556). -/
def barrier (iv : Nat) (s : State) : Result :=
  if s.dir.busy ≠ .input then .fault .busyNotInput
  else match nextBusy s with
    | .low => .next (barrierPass (busyRead s))
    | .high =>
      if timedOut s then .next (endRefresh .panelUnresponsive (busyRead s))
      else .next (barrierPoll iv (busyRead s))

/-- One micro-op (R567, R556). -/
def microStep (m : MicroOp) (s : State) : Result :=
  match m with
  | .w p l => andThen (pinWrite p l s) fun t => .next (advanceUpc t)
  | .d ms => .next (advanceUpc (delay ms s))
  | .b iv => barrier iv s

/-- One sequencer step (R574): the micro-op at UPC, or the end of the refresh when UPC = |PROG| (R568). -/
def sequencerStep (s : State) : Result :=
  match s.prog[s.upc]? with
  | some m => microStep m s
  | none => if s.upc = s.prog.length then .next (endRefresh .ok s) else .fault .upcOutOfProgram

/-- The micro-ops of a list, one after the other. -/
def emit (ms : List MicroOp) (s : State) : Result :=
  match ms with
  | [] => .next s
  | m :: rest => andThen (microStep m s) (emit rest)

/-- A wire command: the micro-ops of its frame, which only the sequencer executes (30_encoding.md R306, R314; log
entry 8). -/
def transact (frame : List MicroOp) (s : State) : Result :=
  if s.life = .refreshing then emit frame s else .fault .wireOutsideRefresh

end Sys2Proof.Machine
end

