-- ==== Sys2Proof/Machine/PixelBuffer.lean ====
section
/-! DEFINITION. The pixel operations (40_pixelbuffer.md). -/

namespace Sys2Proof.Machine

/-- CLEAR (R404). -/
def execClear (s : State) : Result :=
  dispatch opClear (fun s => .next (respond opClear .ok 0 (fbClear s))) s

/-- SETPX (R405, R407). -/
def execSetpx (x y : Half) (dark : Bool) (s : State) : Result :=
  dispatch opSetpx (fun s =>
    if inRange s.cfg x y then
      match memRead s (addr s.cfg x y) with
      | some b => .next (respond opSetpx .ok 0 (memWrite s (addr s.cfg x y) (withPixel b (bitk y) dark)))
      | none => .fault (.fbAddressAbsent (addr s.cfg x y))
    else raise opSetpx .outOfRange s) s

/-- GETPX (R406, R407). -/
def execGetpx (x y : Half) (s : State) : Result :=
  dispatch opGetpx (fun s =>
    if inRange s.cfg x y then
      match memRead s (addr s.cfg x y) with
      | some b => .next (respond opGetpx .ok (pixelValue b (bitk y)) s)
      | none => .fault (.fbAddressAbsent (addr s.cfg x y))
    else raise opGetpx .outOfRange s) s

end Sys2Proof.Machine
end

