-- ==== Sys2Proof/Machine/HostOps.lean ====
section
/-! DEFINITION. The system operations and the reserved host word (44_host_interface.md). -/

namespace Sys2Proof.Machine

/-- The pins in the order INIT and TEARDOWN configure them (R603, R607). -/
def outPins : List OutPin := [.din, .clk, .cs, .dc, .rst]

/-- INIT's pin calls: the outputs, then BUSY (R603). -/
def claimPins (s : State) : State :=
  pinConfigure .busy .input (outPins.foldl (fun s p => pinConfigure (.out p) .output s) s)

/-- TEARDOWN's pin calls: all six (R607). -/
def releasePins (s : State) : State :=
  pinConfigure .busy .unconfigured (outPins.foldl (fun s p => pinConfigure (.out p) .unconfigured s) s)

/-- The sequencer's values after INIT and after TEARDOWN (10_state.md R118). -/
def sequencerIdle (s : State) : State := { s with upc := 0, prog := [], elapsed := 0 }

/-- INIT's effect once its checks have passed (R603): the geometry, the framebuffer as a fresh free draw, the pins. -/
def construct (w h : Half) (s : State) : State :=
  let c : Cfg := { s.cfg with w := w, h := h, hb := groupsOf h }
  let t := claimPins { s with cfg := c, fb := fbDraw s.draws (fbSize c), draws := s.draws + 1 }
  { sequencerIdle t with lvl := Lines.unknown, life := .ready }

/-- INIT (R603). -/
def execInit (w h : Half) (s : State) : Result :=
  dispatch opInit (fun s =>
    if geometryOk s.cfg.fbCapacity w h then .next (respond opInit .ok 0 (construct w h s))
    else raise opInit .invalidGeometry s) s

/-- WIDTH (R604). -/
def execWidth (s : State) : Result := dispatch opWidth (fun s => .next (respond opWidth .ok s.cfg.w s)) s

/-- HEIGHT (R605). -/
def execHeight (s : State) : Result := dispatch opHeight (fun s => .next (respond opHeight .ok s.cfg.h s)) s

/-- The start of a refresh (R606): PROG is built, no response yet. -/
def startRefresh (s : State) : State :=
  { s with prog := program s.cfg s.fb, upc := 0, elapsed := 0, life := .refreshing }

/-- REFRESH (R606). -/
def execRefresh (s : State) : Result := dispatch opRefresh (fun s => .next (startRefresh s)) s

/-- TEARDOWN's effect (R607). -/
def release (s : State) : State := { sequencerIdle (releasePins s) with lvl := Lines.unknown, life := .released }

/-- TEARDOWN (R607). -/
def execTeardown (s : State) : Result := dispatch opTeardown (fun s => .next (respond opTeardown .ok 0 (release s))) s

/-- A reserved host word (R608): ILLEGAL_OP, after the check for a refresh and before the lifecycle check (R602). -/
def execReservedHostWord (w : HostWord) (s : State) : Result :=
  if s.life = .refreshing then refuseConflict w.op s else raise w.op .illegalOp s

end Sys2Proof.Machine
end

