-- ==== Sys2Proof/Machine/Panel.lean ====
section
/-! DEFINITION. The wire commands (42_panel_commands.md): each emits its one frame. What the panel does with it is
outside the block (R514). -/

namespace Sys2Proof.Machine

/-- 0x01 DRV_OUT_CTRL (R503). -/
def execDrvOutCtrl (s : State) : Result := transact (send Config.target.opDrvOutCtrl Config.target.drvOut) s

/-- 0x10 DEEP_SLEEP (R513). -/
def execDeepSleep (s : State) : Result := transact (send Config.target.opDeepSleep Config.target.deepSleepMode) s

/-- 0x11 DATA_ENTRY (R504). -/
def execDataEntry (s : State) : Result := transact (send Config.target.opDataEntry Config.target.dataEntry) s

/-- 0x12 SW_RESET (R502). -/
def execSwReset (s : State) : Result := transact (send Config.target.opSwReset []) s

/-- 0x20 MASTER_ACT (R508). -/
def execMasterAct (s : State) : Result := transact (send Config.target.opMasterAct []) s

/-- 0x22 UPD_SEQ in its two forms (R507). -/
def execUpdSeq (mode : UpdMode) (s : State) : Result := transact (send Config.target.opUpdSeq [updModeByte mode]) s

/-- 0x24 WRITE_RAM_PRI (R511): the row stream of FB. -/
def execWriteRamPri (s : State) : Result := transact (streamFrame Config.target.opWriteRamPri (streamRows s.cfg s.fb)) s

/-- 0x26 WRITE_RAM_SEC (R512): the row stream of FB. -/
def execWriteRamSec (s : State) : Result := transact (streamFrame Config.target.opWriteRamSec (streamRows s.cfg s.fb)) s

/-- 0x44 RAM_X_WIN (R505). -/
def execRamXWin (s : State) : Result := transact (send Config.target.opRamXWin Config.target.ramXWin) s

/-- 0x45 RAM_Y_WIN (R506). -/
def execRamYWin (s : State) : Result := transact (send Config.target.opRamYWin Config.target.ramYWin) s

/-- 0x4E RAM_X_PTR (R509). -/
def execRamXPtr (s : State) : Result := transact (send Config.target.opRamXPtr Config.target.ramXPtr) s

/-- 0x4F RAM_Y_PTR (R510). -/
def execRamYPtr (s : State) : Result := transact (send Config.target.opRamYPtr Config.target.ramYPtr) s

/-- The frame of a wire command over the framebuffer of a state (30_encoding.md R306); no micro-op for a host word. -/
def frameOf (i : Instr) (c : Cfg) (m : Memory) : List MicroOp :=
  match i with
  | .init _ _ => []
  | .clear => []
  | .setpx _ _ _ => []
  | .getpx _ _ => []
  | .width => []
  | .height => []
  | .refresh => []
  | .teardown => []
  | .reservedHostWord _ => []
  | .drvOutCtrl => send Config.target.opDrvOutCtrl Config.target.drvOut
  | .deepSleep => send Config.target.opDeepSleep Config.target.deepSleepMode
  | .dataEntry => send Config.target.opDataEntry Config.target.dataEntry
  | .swReset => send Config.target.opSwReset []
  | .masterAct => send Config.target.opMasterAct []
  | .updSeq mode => send Config.target.opUpdSeq [updModeByte mode]
  | .writeRamPri => streamFrame Config.target.opWriteRamPri (streamRows c m)
  | .writeRamSec => streamFrame Config.target.opWriteRamSec (streamRows c m)
  | .ramXWin => send Config.target.opRamXWin Config.target.ramXWin
  | .ramYWin => send Config.target.opRamYWin Config.target.ramYWin
  | .ramXPtr => send Config.target.opRamXPtr Config.target.ramXPtr
  | .ramYPtr => send Config.target.opRamYPtr Config.target.ramYPtr

end Sys2Proof.Machine
end

