-- ==== Sys2Proof/Machine/Receiver.lean ====
section
/-! DEFINITION. The receiver's reading of TRACE (41_seriallink.md R460): which frames and wire bytes the `Wr` events
spell. It is a function of TRACE, not state (10_state.md R131). -/

namespace Sys2Proof.Machine

/-- What the receiver records at a rising CLK edge in a frame: the levels of DIN and DC. -/
structure Sample where
  din : Option Level
  dc : Option Level
deriving DecidableEq, Repr

/-- A command byte or a data byte (R460). -/
inductive WireKind where
  | command
  | data
deriving DecidableEq, Repr

/-- A wire byte; `value` is none where DIN was unknown at one of its samples (log entry 21). -/
structure WireByte where
  kind : WireKind
  value : Option Byte
deriving DecidableEq, Repr

/-- The bytes of one CS frame, first to last. -/
abbrev WireFrame := List WireByte

/-- The receiver: the line levels it sees, the samples of the open frame and the frames that have ended, newest first. -/
structure Receiver where
  lines : Lines
  samples : List Sample
  frames : List WireFrame
deriving DecidableEq, Repr

/-- Nothing seen yet. -/
def Receiver.start : Receiver := ⟨Lines.unknown, [], []⟩

/-- `lvl^-1` on eight levels, first sample = bit 7 (R460). -/
def assembleByte (l7 l6 l5 l4 l3 l2 l1 l0 : Option Level) : Option Byte :=
  match l7, l6, l5, l4, l3, l2, l1, l0 with
  | some l7, some l6, some l5, some l4, some l3, some l2, some l1, some l0 =>
    let v (l : Level) (k : Nat) : Byte := if l = .high then 1#8 <<< k else 0
    some (v l7 7 + v l6 6 + v l5 5 + v l4 4 + v l3 3 + v l2 2 + v l1 1 + v l0 0)
  | _, _, _, _, _, _, _, _ => none

/-- The bytes of a frame's samples, first sample first: each 8 consecutive samples one byte, DC read at the eighth
(R460). -/
def assemble : List Sample → WireFrame
  | s7 :: s6 :: s5 :: s4 :: s3 :: s2 :: s1 :: s0 :: rest =>
    ⟨if s0.dc = some .low then .command else .data,
      assembleByte s7.din s6.din s5.din s4.din s3.din s2.din s1.din s0.din⟩ :: assemble rest
  | _ => []

/-- One event as the receiver sees it (R460). -/
def observe (r : Receiver) (e : Event) : Receiver :=
  match e with
  | .wr p l =>
    let seen := { r with lines := setLine r.lines p (some l) }
    match p, l with
    | .cs, .low => if r.lines.cs = some .low then seen else { seen with samples := [] }
    | .cs, .high =>
      if r.lines.cs = some .low then
        { seen with samples := [], frames := assemble r.samples.reverse :: r.frames }
      else seen
    | .clk, .high =>
      if r.lines.clk = some .low ∧ r.lines.cs = some .low then
        { seen with samples := ⟨r.lines.din, r.lines.dc⟩ :: r.samples }
      else seen
    | _, _ => seen
  | .cfg (.out p) _ => { r with lines := setLine r.lines p none }
  | .cfg .busy _ => r
  | .rd _ => r
  | .dly _ => r
  | .resp _ _ _ => r

/-- The receiver after a list of events, first to last. -/
def observeAll (r : Receiver) (es : List Event) : Receiver := es.foldl observe r

/-- The transaction log of a TRACE (R460): its frames, first to last. TRACE is stored newest first. -/
def transactionLog (trace : List Event) : List WireFrame := (observeAll .start trace.reverse).frames.reverse

/-- The event a pin write or a reset delay records; a barrier's events depend on BUSY. -/
def eventsOf : MicroOp → List Event
  | .w p l => [.wr p l]
  | .d ms => [.dly ms]
  | .b _ => []

end Sys2Proof.Machine
end

