-- ==== Sys2Proof/Machine/Dispatch.lean ====
section
/-! DEFINITION. The meaning of every instruction: one arm per constructor. -/

namespace Sys2Proof.Machine

def exec (i : Instr) (s : State) : Host.Outcome State Fault Refusal :=
  match i with
  -- host operations (30_encoding.md R303)
  | .init w h => Sys2Proof.Machine.execInit w h s
  | .clear => Sys2Proof.Machine.execClear s
  | .setpx x y dark => Sys2Proof.Machine.execSetpx x y dark s
  | .getpx x y => Sys2Proof.Machine.execGetpx x y s
  | .width => Sys2Proof.Machine.execWidth s
  | .height => Sys2Proof.Machine.execHeight s
  | .refresh => Sys2Proof.Machine.execRefresh s
  | .teardown => Sys2Proof.Machine.execTeardown s
  | .reservedHostWord w => Sys2Proof.Machine.execReservedHostWord w s
  -- wire commands (30_encoding.md R308)
  | .drvOutCtrl => Sys2Proof.Machine.execDrvOutCtrl s
  | .deepSleep => Sys2Proof.Machine.execDeepSleep s
  | .dataEntry => Sys2Proof.Machine.execDataEntry s
  | .swReset => Sys2Proof.Machine.execSwReset s
  | .masterAct => Sys2Proof.Machine.execMasterAct s
  | .updSeq mode => Sys2Proof.Machine.execUpdSeq mode s
  | .writeRamPri => Sys2Proof.Machine.execWriteRamPri s
  | .writeRamSec => Sys2Proof.Machine.execWriteRamSec s
  | .ramXWin => Sys2Proof.Machine.execRamXWin s
  | .ramYWin => Sys2Proof.Machine.execRamYWin s
  | .ramXPtr => Sys2Proof.Machine.execRamXPtr s
  | .ramYPtr => Sys2Proof.Machine.execRamYPtr s

end Sys2Proof.Machine
end

