-- ==== Sys2Proof/Machine/Step.lean ====
section
/-! DEFINITION. One step of the block (20_memory.md R217: one sequential agent). -/

namespace Sys2Proof.Machine

/-- The block left to itself: the sequencer while a refresh runs (43_sequencer.md R574), else nothing happens until the
next host word (70_reset_and_hazards.md R804). -/
def advance (s : State) : Host.Outcome State Fault Refusal :=
  if s.life = .refreshing then sequencerStep s else .next s

/-- One step. A wire frame issued whole comes first (log entry 8; nothing the block does issues one). Else the host
port's next input is taken: a word is decoded and executed (44_host_interface.md R602, R610), a power cycle resets the
block (70_reset_and_hazards.md R801), and with no input the block goes on by itself. -/
def step (s : State) : Host.Outcome State Fault Refusal :=
  match s.issue with
  | some bytes =>
    match decodeWire bytes with
    | .ok i => exec i { s with issue := none }
    | .error _ => .fault .noSuchWireFrame
  | none =>
    match s.inputs with
    | [] => advance s
    | .quiet :: rest => advance { s with inputs := rest }
    | .word w :: rest => exec (decodeHost w) { s with inputs := rest }
    | .powerCycle :: rest => .next (powerOn { s with inputs := rest })

/-- The state whose next step runs the table's word (log entries 9 and 10): a host word is put first at the host port. A
wire command exists only inside a refresh, so the block is put in a refresh whose program is that one frame, with the
pins claimed, and the frame is issued. -/
def State.withFetchWord (s : State) (nbits w : Nat) : State :=
  match tableWord nbits w with
  | .host hw => { s with inputs := .word hw :: s.inputs, issue := none }
  | .wire bytes =>
    match decodeWire bytes with
    | .ok i =>
      { s with
        life := .refreshing, dir := Dirs.claimed, prog := frameOf i s.cfg s.fb, upc := 0, elapsed := 0
        issue := some bytes }
    | .error _ => { s with issue := some bytes }

end Sys2Proof.Machine
end

