-- ==== Sys2Proof/Safety.lean ====
section
/-! DEFINITION. What counts as a safe run: the invariant every step keeps, and the whole-machine readings of TRACE that
the statements use. -/

namespace Sys2Proof.Machine

/-- The pins are claimed from INIT to TEARDOWN (10_state.md R105, R107). -/
def Life.claims : Life → Bool
  | .unbound => false
  | .ready => true
  | .refreshing => true
  | .released => false

/-- CFG holds a geometry that INIT accepted (R103, R603). -/
def GeometryFits (c : Cfg) : Prop := geometryOk c.fbCapacity c.w c.h = true ∧ c.hb = groupsOf c.h

/-- The invariant: what the spec says of the state between any two steps. -/
structure Inv (s : State) : Prop where
  /-- No frame is issued from outside the sequencer (log entry 8). -/
  noIssue : s.issue = none
  /-- FB_CAPACITY is at least 4736 (R103). -/
  capacity : 4736 ≤ s.cfg.fbCapacity
  /-- Before INIT there is no geometry and FB has no bytes (R118). -/
  unbuilt : s.life = .unbound → s.cfg.w = 0 ∧ s.cfg.h = 0 ∧ s.cfg.hb = 0 ∧ s.fb = []
  /-- From INIT on the geometry is one that INIT accepts (R603). -/
  geometry : s.life ≠ .unbound → GeometryFits s.cfg
  /-- FB is in its canonical form. -/
  fbCanonical : Memory.wf s.fb = true
  /-- FB lists no byte outside its W·HB bytes (R106). -/
  fbBounded : ∀ c ∈ s.fb, c.1 < fbSize s.cfg
  /-- DIR follows the lifecycle (R107). -/
  directions : s.dir = if s.life.claims then Dirs.claimed else Dirs.unclaimed
  /-- Before INIT and after TEARDOWN every level is unknown (R108). -/
  levels : s.life.claims = false → s.lvl = Lines.unknown
  /-- Outside a refresh the sequencer is empty (R118, 43_sequencer.md R568). -/
  atRest : s.life ≠ .refreshing → s.upc = 0 ∧ s.prog = [] ∧ s.elapsed = 0
  /-- During a refresh PROG is the program of CFG and FB (R114, R571), and UPC is in its range (R112). -/
  running : s.life = .refreshing → s.prog = program s.cfg s.fb ∧ s.upc ≤ s.prog.length
  /-- ELAPSED is not 0 only at a barrier, and counts its polls (R113). -/
  waiting : s.elapsed ≠ 0 → ∃ iv k, s.prog[s.upc]? = some (.b iv) ∧ s.elapsed = k * iv

/-! ### Kinds of micro-ops -/

/-- A micro-op other than a barrier. -/
def MicroOp.straight : MicroOp → Bool
  | .w _ _ => true
  | .d _ => true
  | .b _ => false

/-- A pin write. -/
def MicroOp.isWrite : MicroOp → Bool
  | .w _ _ => true
  | .d _ => false
  | .b _ => false

/-! ### Runs -/

/-- `n` steps; a stop ends the run. -/
def runs (n : Nat) (s : State) : Result :=
  match n with
  | 0 => .next s
  | n + 1 => andThen (step s) (runs n)

/-! ### What TRACE says (R131); a trace is stored newest first -/

/-- DIR as the Cfg events of a trace leave it. -/
def dirsSeen : List Event → Dirs
  | [] => Dirs.unclaimed
  | .cfg p d :: rest => setDir (dirsSeen rest) p d
  | .wr _ _ :: rest => dirsSeen rest
  | .rd _ :: rest => dirsSeen rest
  | .dly _ :: rest => dirsSeen rest
  | .resp _ _ _ :: rest => dirsSeen rest

/-- A response with status HOST_CONFLICT. -/
def Event.isConflict : Event → Bool
  | .resp _ .hostConflict _ => true
  | .resp _ .ok _ => false
  | .resp _ .outOfRange _ => false
  | .resp _ .panelUnresponsive _ => false
  | .resp _ .invalidGeometry _ => false
  | .resp _ .illegalOp _ => false
  | .resp _ .wrongState _ => false
  | .cfg _ _ => false
  | .wr _ _ => false
  | .rd _ => false
  | .dly _ => false

/-- A response. -/
def Event.isResp : Event → Bool
  | .resp _ _ _ => true
  | .cfg _ _ => false
  | .wr _ _ => false
  | .rd _ => false
  | .dly _ => false

/-- A BUSY read. -/
def Event.isRead : Event → Bool
  | .rd _ => true
  | .resp _ _ _ => false
  | .cfg _ _ => false
  | .wr _ _ => false
  | .dly _ => false

/-- TRACE accounts for the pins and for FAULT: LVL and DIR are what its events leave (R107, R108), and FAULT holds
HOST_CONFLICT exactly when such a response has been given (R115, R708). -/
structure TraceAccounts (s : State) : Prop where
  levels : s.lvl = (observeAll .start s.trace.reverse).lines
  directions : s.dir = dirsSeen s.trace
  conflict : s.faultHostConflict = s.trace.any Event.isConflict

/-- What a response may say (30_encoding.md R302, 60_exceptions.md R702): its VALUE by operation, VALUE 0 with every
status but OK, and which operations raise which status (WRONG_STATE: the defined ones, OP 0x1 to 0x8). -/
def Event.lawful : Event → Bool
  | .resp op .ok v =>
    if op == opGetpx then v == 0 || v == 1
    else if op == opWidth || op == opHeight then true
    else v == 0 && (op == opInit || op == opClear || op == opSetpx || op == opRefresh || op == opTeardown)
  | .resp op .outOfRange v => v == 0 && (op == opSetpx || op == opGetpx)
  | .resp op .panelUnresponsive v => v == 0 && op == opRefresh
  | .resp op .invalidGeometry v => v == 0 && op == opInit
  | .resp _ .illegalOp v => v == 0
  | .resp op .wrongState v => v == 0 && decide (1 ≤ op.toNat ∧ op.toNat ≤ 8)
  | .resp _ .hostConflict v => v == 0
  | .cfg _ _ => true
  | .wr _ _ => true
  | .rd _ => true
  | .dly _ => true

/-- The micro-ops leave a frame open: their last write of CS is LOW. -/
def leavesOpen (ms : List MicroOp) : Bool :=
  ms.foldl (fun o m =>
    match m with
    | .w .cs .low => true
    | .w .cs .high => false
    | .w .din _ => o
    | .w .clk _ => o
    | .w .dc _ => o
    | .w .rst _ => o
    | .d _ => o
    | .b _ => o) false

/-- CS is LOW only inside a frame of the running program (41_seriallink.md R458). -/
structure FramesClosed (s : State) : Prop where
  outside : s.life ≠ .refreshing → s.lvl.cs ≠ some .low
  inside : s.life = .refreshing → (s.lvl.cs = some .low ↔ leavesOpen (s.prog.take s.upc) = true)

/-! ### Frames: what stays -/

/-- Everything but LVL, UPC and TRACE is the same. -/
structure SameButWires (s t : State) : Prop where
  cfg : t.cfg = s.cfg
  life : t.life = s.life
  fb : t.fb = s.fb
  dir : t.dir = s.dir
  prog : t.prog = s.prog
  elapsed : t.elapsed = s.elapsed
  fault : t.faultHostConflict = s.faultHostConflict
  inputs : t.inputs = s.inputs
  busyIn : t.busyIn = s.busyIn
  draws : t.draws = s.draws
  issue : t.issue = s.issue

/-- Everything but FB and TRACE is the same: no configuration, lifecycle, pin, sequencer or fault state changes. -/
structure SameButFb (s t : State) : Prop where
  cfg : t.cfg = s.cfg
  life : t.life = s.life
  dir : t.dir = s.dir
  lvl : t.lvl = s.lvl
  upc : t.upc = s.upc
  prog : t.prog = s.prog
  elapsed : t.elapsed = s.elapsed
  fault : t.faultHostConflict = s.faultHostConflict
  inputs : t.inputs = s.inputs
  busyIn : t.busyIn = s.busyIn
  draws : t.draws = s.draws
  issue : t.issue = s.issue

end Sys2Proof.Machine
end

