-- ==== Sys2Proof/Certificates/Slice0/Obligations.lean ====
section
/-! DEFINITION. The statements for the provers. Each docstring names the rules of spec/ it formalises, or says what of it
is the model's own choice. In statements about `step` the fields inputs, busyIn, draws and issue are the model's own
(log entries 4, 6 and 8), and State.trace is newest first (log entry 12). -/

open Sys2Proof Sys2Proof.Machine

/-! ### Encoding -/

/-- Words written out from 30_encoding.md R301, R303 and 95_test_vectors.md section 2.1, and wire frames from R308. -/
def Obligations.WrittenWordsDecode : Prop :=
  decode (.host 0x0080012801) = .ok (.init 296 128) ∧
  decode (.host 0x0000000512) = .ok .clear ∧
  decode (.host 0x007F012713) = .ok (.setpx 295 127 true) ∧
  decode (.host 0x0009000104) = .ok (.getpx 1 9) ∧
  decode (.host 0x0000000008) = .ok .teardown ∧
  decode (.host 0x000200010F) = .ok (.reservedHostWord 0x000200010F) ∧
  decode (.wire [0x01, 0x27, 0x01, 0x00]) = .ok .drvOutCtrl ∧
  decode (.wire [0x22, 0xC7]) = .ok (.updSeq .fullRefresh) ∧
  decode (.wire [0x26]) = .ok .writeRamSec

/-- Decoding the encoding of a well-formed instruction gives it back, every operand at every value (R301, R303, R305,
R308). -/
def Obligations.DecodeOfEncodeIsTheInstruction : Prop :=
  ∀ i : Instr, i.wellFormed = true → decode (encode i) = .ok i

/-- R304 and R608: the reserved words spell no operation and are refused with ILLEGAL_OP (HOST_CONFLICT during a
refresh, also before INIT), every other word spells an operation, and fields an operation does not use are ignored.
That the response event of a reserved word carries its OP field is the model's reading (log entry 11, DEDUCED). -/
def Obligations.ReservedWordsAndUnusedFields : Prop :=
  (∀ w : HostWord, (w.op = 0 ∨ 9 ≤ w.op.toNat ∨ w.rsv ≠ 0) ↔ decodeHost w = .reservedHostWord w) ∧
  (∀ (w : HostWord) (s : State),
    (s.life ≠ .refreshing →
      exec (.reservedHostWord w) s = .next { s with trace := .resp w.op .illegalOp 0 :: s.trace }) ∧
    (s.life = .refreshing →
      exec (.reservedHostWord w) s =
        .next { s with faultHostConflict := true, trace := .resp w.op .hostConflict 0 :: s.trace })) ∧
  (∀ w w' : HostWord, w.rsv = 0 → w'.rsv = 0 → w'.op = w.op →
    (w.op = 0x2 ∨ w.op = 0x5 ∨ w.op = 0x6 ∨ w.op = 0x7 ∨ w.op = 0x8 → decodeHost w' = decodeHost w) ∧
    (w.op = 0x1 ∨ w.op = 0x4 → w'.x = w.x → w'.y = w.y → decodeHost w' = decodeHost w))

/-! ### The step -/

/-- What one step runs: a word at the host port is decoded and executed (R601, R602, R610); with no input the
sequencer executes its micro-op during a refresh (R574) and nothing happens otherwise (R804; a step that changes
nothing, log entry 15); an issued wire frame is decoded and executed (the model's own latch, log entry 8). That a step
takes one input and does nothing else is the model's form (log entry 6). -/
def Obligations.StepRunsTheDecodedInstruction : Prop :=
  (∀ (s : State) (w : HostWord) (rest : List Input) (i : Instr),
    s.issue = none → s.inputs = .word w :: rest → decode (.host w) = .ok i →
    step s = exec i { s with inputs := rest }) ∧
  (∀ (s : State) (bytes : List Byte) (i : Instr),
    s.issue = some bytes → decode (.wire bytes) = .ok i → step s = exec i { s with issue := none }) ∧
  (∀ s : State, s.issue = none → (s.inputs = [] ∨ s.inputs.head? = some .quiet) →
    (s.life = .refreshing → step s = sequencerStep { s with inputs := s.inputs.tail }) ∧
    (s.life ≠ .refreshing → step s = .next { s with inputs := s.inputs.tail }))

/-- Where PROG holds the frame of a wire command at UPC, as many sequencer steps as the frame has micro-ops come to
what the wire command does (R306, R567, R574). That executing a wire command emits its whole frame at once is the
model's choice (log entry 8). -/
def Obligations.SequencerRunsAWireCommand : Prop :=
  ∀ (i : Instr) (s : State) (rest : List MicroOp),
    i.isHost = false → s.life = .refreshing → s.dir = Dirs.claimed → s.issue = none → s.inputs = [] →
    s.prog.drop s.upc = frameOf i s.cfg s.fb ++ rest →
    runs (frameOf i s.cfg s.fb).length s = exec i s

/-! ### INIT, TEARDOWN, WIDTH, HEIGHT, REFRESH -/

/-- INIT (R603). A host word with OP 0x1 and RSV 000 is INIT of its X and Y, DARK ignored. Before construction, with a
geometry that passes every check it sets CFG, draws FB, configures the six pins in order, leaves every level unknown,
enters READY and responds OK; with any other it changes nothing and responds INVALID_GEOMETRY. The form of the free
draw, Config.fbInit of the draw counter, is the model's (log entry 3); that UPC, PROG and ELAPSED are left 0 and empty
is read from R118's table (log entry 22, DEDUCED). -/
def Obligations.InitConstructsOrRefuses : Prop :=
  (∀ w : HostWord, w.op = 0x1 → w.rsv = 0 → decodeHost w = .init w.x w.y) ∧
  ∀ (s : State) (w h : Half), s.life = .unbound →
    (w ≠ 0 ∧ h ≠ 0 ∧ h.toNat % 8 = 0 ∧ Config.target.offsetY + h.toNat / 8 ≤ Config.target.virtualY ∧
        w.toNat * (h.toNat / 8) ≤ s.cfg.fbCapacity →
      ∃ t, exec (.init w h) s = .next t ∧
        t.cfg = { s.cfg with w := w, h := h, hb := BitVec.ofNat 13 (h.toNat / 8) } ∧
        t.cfg.hb.toNat = h.toNat / 8 ∧
        t.life = .ready ∧
        (∀ a, a < w.toNat * (h.toNat / 8) → fbRead t.fb a = Config.fbInit s.draws a) ∧
        t.dir = ⟨.output, .output, .output, .output, .output, .input⟩ ∧
        t.lvl = ⟨none, none, none, none, none⟩ ∧
        t.upc = 0 ∧ t.prog = [] ∧ t.elapsed = 0 ∧
        t.faultHostConflict = s.faultHostConflict ∧
        t.trace = [.resp opInit .ok 0, .cfg .busy .input, .cfg (.out .rst) .output, .cfg (.out .dc) .output,
          .cfg (.out .cs) .output, .cfg (.out .clk) .output, .cfg (.out .din) .output] ++ s.trace ∧
        t.inputs = s.inputs ∧ t.busyIn = s.busyIn ∧ t.draws = s.draws + 1 ∧ t.issue = s.issue) ∧
    (¬(w ≠ 0 ∧ h ≠ 0 ∧ h.toNat % 8 = 0 ∧ Config.target.offsetY + h.toNat / 8 ≤ Config.target.virtualY ∧
        w.toNat * (h.toNat / 8) ≤ s.cfg.fbCapacity) →
      exec (.init w h) s = .next { s with trace := .resp opInit .invalidGeometry 0 :: s.trace })

/-- The heights INIT accepts for TARGET are the multiples of 8 from 8 to 168 (R603's corner cases): 168 passes and 176
fails, whatever the width. -/
def Obligations.InitAcceptsHeightsUpTo168 : Prop :=
  ∀ (s : State) (w h : Half), s.life = .unbound → w ≠ 0 → w.toNat * (h.toNat / 8) ≤ s.cfg.fbCapacity →
    ((∃ t, exec (.init w h) s = .next t ∧ t.life = .ready) ↔ 8 ≤ h.toNat ∧ h.toNat ≤ 168 ∧ h.toNat % 8 = 0)

/-- WIDTH and HEIGHT (R604, R605): host words with OP 0x5 and 0x6 and RSV 000, the other fields ignored; in READY they
respond with the geometry and change no state. -/
def Obligations.WidthAndHeightRespondTheGeometry : Prop :=
  (∀ w : HostWord, w.op = 0x5 → w.rsv = 0 → decodeHost w = .width) ∧
  (∀ w : HostWord, w.op = 0x6 → w.rsv = 0 → decodeHost w = .height) ∧
  ∀ s : State, s.life = .ready →
    exec .width s = .next { s with trace := .resp opWidth .ok s.cfg.w :: s.trace } ∧
    exec .height s = .next { s with trace := .resp opHeight .ok s.cfg.h :: s.trace }

/-- REFRESH: a host word with OP 0x7 and RSV 000; in READY it builds the program, starts it at micro-op 0 and gives no
response; nothing else changes (R606). -/
def Obligations.RefreshStartsTheProgram : Prop :=
  (∀ w : HostWord, w.op = 0x7 → w.rsv = 0 → decodeHost w = .refresh) ∧
  ∀ s : State, s.life = .ready →
    exec .refresh s =
      .next { s with prog := program s.cfg s.fb, upc := 0, elapsed := 0, life := .refreshing }

/-- TEARDOWN: a host word with OP 0x8 and RSV 000; in READY it configures the six pins back in order, leaves every
level unknown, enters RELEASED and responds OK; FB and CFG stay (R607, R803). That UPC, PROG and ELAPSED are left 0
and empty is read from R118's table (log entry 22, DEDUCED). -/
def Obligations.TeardownReleasesThePins : Prop :=
  (∀ w : HostWord, w.op = 0x8 → w.rsv = 0 → decodeHost w = .teardown) ∧
  ∀ s : State, s.life = .ready →
    exec .teardown s = .next { s with
      dir := ⟨.unconfigured, .unconfigured, .unconfigured, .unconfigured, .unconfigured, .unconfigured⟩
      lvl := ⟨none, none, none, none, none⟩
      life := .released
      upc := 0, prog := [], elapsed := 0
      trace := [.resp opTeardown .ok 0, .cfg .busy .unconfigured, .cfg (.out .rst) .unconfigured,
        .cfg (.out .dc) .unconfigured, .cfg (.out .cs) .unconfigured, .cfg (.out .clk) .unconfigured,
        .cfg (.out .din) .unconfigured] ++ s.trace }

/-! ### Pixels -/

/-- CLEAR: a host word with OP 0x2 and RSV 000, the other fields ignored; in READY it makes every byte 0x00, responds
OK and changes nothing else, and doing it twice leaves FB as once (R404). -/
def Obligations.ClearMakesEveryByteWhite : Prop :=
  (∀ w : HostWord, w.op = 0x2 → w.rsv = 0 → decodeHost w = .clear) ∧
  ∀ s : State, s.life = .ready →
    ∃ t, exec .clear s = .next t ∧ (∀ a, fbRead t.fb a = 0x00) ∧ SameButFb s t ∧
      t.trace = .resp opClear .ok 0 :: s.trace ∧
      ∀ u, exec .clear t = .next u → u.fb = t.fb

/-- CLEAR is the loop of byte writes of R404's pseudocode. -/
def Obligations.ClearIsTheLoopOfByteWrites : Prop :=
  ∀ s : State, (∀ c ∈ s.fb, c.1 < fbSize s.cfg) →
    (List.range (fbSize s.cfg)).foldl (fun t a => memWrite t a 0x00) s = fbClear s

/-- SETPX (R405, R407): a host word with OP 0x3 and RSV 000, with its X, Y and DARK. In READY: in range it sets bit y
& 7 of byte x·HB + (y >> 3) to the pixel value, leaves the other bits of that byte and every other byte, and responds
OK; out of range it changes nothing and responds OUT_OF_RANGE. No other state changes in either case. -/
def Obligations.SetpxSetsExactlyOnePixel : Prop :=
  (∀ w : HostWord, w.op = 0x3 → w.rsv = 0 → decodeHost w = .setpx w.x w.y w.dark) ∧
  ∀ (s : State) (x y : Half) (dark : Bool), s.life = .ready → GeometryFits s.cfg →
    (x.toNat < s.cfg.w.toNat ∧ y.toNat < s.cfg.h.toNat →
      ∃ t, exec (.setpx x y dark) s = .next t ∧ SameButFb s t ∧
        t.trace = .resp opSetpx .ok 0 :: s.trace ∧
        (∀ k, k < 8 → (fbRead t.fb (x.toNat * s.cfg.hb.toNat + y.toNat / 8)).getLsbD k =
          if k = y.toNat % 8 then dark
          else (fbRead s.fb (x.toNat * s.cfg.hb.toNat + y.toNat / 8)).getLsbD k) ∧
        ∀ a, a ≠ x.toNat * s.cfg.hb.toNat + y.toNat / 8 → fbRead t.fb a = fbRead s.fb a) ∧
    (¬(x.toNat < s.cfg.w.toNat ∧ y.toNat < s.cfg.h.toNat) →
      exec (.setpx x y dark) s = .next { s with trace := .resp opSetpx .outOfRange 0 :: s.trace })

/-- GETPX (R406, R407): a host word with OP 0x4 and RSV 000, with its X and Y, DARK ignored. In READY: in range it
responds with bit y & 7 of byte x·HB + (y >> 3), out of range with OUT_OF_RANGE; it changes no state. -/
def Obligations.GetpxReadsExactlyOnePixel : Prop :=
  (∀ w : HostWord, w.op = 0x4 → w.rsv = 0 → decodeHost w = .getpx w.x w.y) ∧
  ∀ (s : State) (x y : Half), s.life = .ready → GeometryFits s.cfg →
    (x.toNat < s.cfg.w.toNat ∧ y.toNat < s.cfg.h.toNat →
      ∃ v : Half, exec (.getpx x y) s = .next { s with trace := .resp opGetpx .ok v :: s.trace } ∧
        v = if (fbRead s.fb (x.toNat * s.cfg.hb.toNat + y.toNat / 8)).getLsbD (y.toNat % 8) then 1 else 0) ∧
    (¬(x.toNat < s.cfg.w.toNat ∧ y.toNat < s.cfg.h.toNat) →
      exec (.getpx x y) s = .next { s with trace := .resp opGetpx .outOfRange 0 :: s.trace })

/-- The pixel laws (R411): after SETPX x, y, d a GETPX of (x, y) responds d and of any other in-range pixel what it
responded before; after CLEAR every in-range GETPX responds 0. -/
def Obligations.PixelLaws : Prop :=
  ∀ (s t u : State) (x y x' y' : Half) (d : Bool) (v : Half), s.life = .ready → GeometryFits s.cfg →
    inRange s.cfg x y = true → inRange s.cfg x' y' = true →
    (exec (.setpx x y d) s = .next t → exec (.getpx x' y') t = .next u →
      exec (.getpx x' y') s = .next { s with trace := .resp opGetpx .ok v :: s.trace } →
      u.trace.head? = some (.resp opGetpx .ok (if x' = x ∧ y' = y then (if d then 1 else 0) else v))) ∧
    (exec .clear s = .next t → exec (.getpx x' y') t = .next u →
      u.trace.head? = some (.resp opGetpx .ok 0))

/-- SETPX is idempotent: performing it twice leaves FB as performing it once (R214). -/
def Obligations.SetpxIsIdempotent : Prop :=
  ∀ (s t u : State) (x y : Half) (d : Bool),
    exec (.setpx x y d) s = .next t → exec (.setpx x y d) t = .next u → u.fb = t.fb

/-! ### Refusals -/

/-- A defined operation outside its lifecycle responds WRONG_STATE and changes nothing (R609, R707): any but INIT
outside READY, INIT outside UNBOUND, with no refresh running. -/
def Obligations.LifecycleRefusals : Prop :=
  ∀ (i : Instr) (op : OpCode) (s : State), opOf i = some op → (∀ w, i ≠ .reservedHostWord w) →
    s.life ≠ .refreshing →
    (op = opInit ∧ s.life ≠ .unbound ∨ op ≠ opInit ∧ s.life ≠ .ready) →
    exec i s = .next { s with trace := .resp op .wrongState 0 :: s.trace }

/-- Every host word during a refresh is refused with HOST_CONFLICT, sets FAULT and changes nothing else (R708). That
its response event carries the word's OP field is the model's reading (log entry 11, DEDUCED: R708 says the word is
not decoded). -/
def Obligations.WordsDuringARefreshAreRefused : Prop :=
  ∀ (i : Instr) (op : OpCode) (s : State), opOf i = some op → s.life = .refreshing →
    exec i s = .next { s with faultHostConflict := true, trace := .resp op .hostConflict 0 :: s.trace }

/-- Host words during a refresh do not disturb it (R708): a run with any words mixed in, all of them during the
refresh, comes to the state of the run without them, but for FAULT and the HOST_CONFLICT responses in TRACE. The run
may go up to and over the step that ends the refresh, which then gives the REFRESH the response it has in the run
without them. -/
def Obligations.ConflictingWordsDoNotDisturbARefresh : Prop :=
  ∀ (s t : State) (ins : List Input), s.issue = none →
    (∀ x ∈ ins, x ≠ .powerCycle) →
    (∀ n, n < (ins.filter (· == .quiet)).length →
      ∃ r, runs n { s with inputs := [] } = .next r ∧ r.life = .refreshing) →
    runs (ins.filter (· == .quiet)).length { s with inputs := [] } = .next t →
    s.life = .refreshing → (t.life = .refreshing ∨ ins.getLast? = some .quiet) →
    ∃ u, runs ins.length { s with inputs := ins } = .next u ∧
      { u with faultHostConflict := t.faultHostConflict, trace := t.trace } = t ∧
      u.trace.filter (fun e => !e.isConflict) = t.trace.filter (fun e => !e.isConflict) ∧
      u.faultHostConflict = (s.faultHostConflict || ins.any (· != .quiet)) ∧
      (t.life ≠ .refreshing → u.trace.head? = t.trace.head?)

/-- A host word with a non-OK response has no effect but the response, and FAULT with HOST_CONFLICT (R713, R702). -/
def Obligations.RefusalsArePrecise : Prop :=
  ∀ (i : Instr) (s t : State) (op : OpCode) (st : Status) (v : Half), i.isHost = true →
    exec i s = .next t → t.trace = .resp op st v :: s.trace → st ≠ .ok →
    v = 0 ∧ t = { s with
      faultHostConflict := s.faultHostConflict || decide (st = .hostConflict)
      trace := .resp op st 0 :: s.trace }

/-! ### The sequencer -/

/-- The micro-ops W and D (R567): W writes the level and records it, D records the delay, both advance UPC, and
nothing else changes. -/
def Obligations.PinWriteAndDelayMicroOps : Prop :=
  ∀ s : State, s.dir = Dirs.claimed →
    (∀ p l, s.prog[s.upc]? = some (.w p l) →
      ∃ t, sequencerStep s = .next t ∧ SameButWires s t ∧ t.upc = s.upc + 1 ∧ t.trace = .wr p l :: s.trace ∧
        ∀ q, lineOf t.lvl q = if q = p then some l else lineOf s.lvl q) ∧
    (∀ ms, s.prog[s.upc]? = some (.d ms) →
      sequencerStep s = .next { s with upc := s.upc + 1, trace := .dly ms :: s.trace })

/-- The ready barrier (R556, R569): a LOW read passes it, a HIGH read with ELAPSED at BUSY_TIMEOUT or beyond ends the
refresh with PANEL_UNRESPONSIVE, any other HIGH read delays and stays. -/
def Obligations.ReadyBarrierReadsThenDecides : Prop :=
  ∀ (s : State) (iv : Nat) (l : Level) (rest : List Level), s.dir = Dirs.claimed →
    s.prog[s.upc]? = some (.b iv) → s.busyIn = l :: rest →
    (l = .low → sequencerStep s = .next { s with
      busyIn := rest, elapsed := 0, upc := s.upc + 1, trace := .rd .low :: s.trace }) ∧
    (l = .high → ∀ T, s.cfg.busyTimeout = some T → T ≤ s.elapsed → sequencerStep s = .next { s with
      busyIn := rest, life := .ready, upc := 0, prog := [], elapsed := 0
      trace := .resp opRefresh .panelUnresponsive 0 :: .rd .high :: s.trace }) ∧
    (l = .high → (∀ T, s.cfg.busyTimeout = some T → s.elapsed < T) → sequencerStep s = .next { s with
      busyIn := rest, elapsed := s.elapsed + iv, trace := .dly iv :: .rd .high :: s.trace })

/-- With no BUSY level scheduled the level a barrier reads is the free value, whatever it is (R132). -/
def Obligations.UnscheduledBusyReadsAreFree : Prop :=
  ∀ (s : State) (iv : Nat), s.dir = Dirs.claimed → s.prog[s.upc]? = some (.b iv) → s.busyIn = [] →
    s.cfg.busyTimeout = none →
    sequencerStep s = .next
      (if Config.busyHigh s.draws = true then
        { s with draws := s.draws + 1, elapsed := s.elapsed + iv, trace := .dly iv :: .rd .high :: s.trace }
      else { s with draws := s.draws + 1, elapsed := 0, upc := s.upc + 1, trace := .rd .low :: s.trace })

/-- A barrier that reads HIGH n times and then LOW passes after n delays (R556, R557), without a timeout or with a
timeout T that none of the HIGH reads reaches: from ELAPSED 0, with n at most ceil(T / iv) (R569, R815). -/
def Obligations.BarrierPassesAfterHighReads : Prop :=
  ∀ (s : State) (iv n : Nat) (rest : List Level), s.issue = none → s.inputs = [] → s.life = .refreshing →
    s.dir = Dirs.claimed → s.prog[s.upc]? = some (.b iv) →
    (∀ T, s.cfg.busyTimeout = some T → ∀ k, k < n → s.elapsed + k * iv < T) →
    s.busyIn = List.replicate n .high ++ .low :: rest →
    runs (n + 1) s = .next { s with
      busyIn := rest, elapsed := 0, upc := s.upc + 1
      trace := .rd .low :: (List.replicate n [Event.dly iv, Event.rd .high]).flatten ++ s.trace }

/-- With BUSY_TIMEOUT = T a barrier whose BUSY stays HIGH gives up at its (ceil(T / iv) + 1)-th read, after ceil(T /
iv) delays, and the refresh ends with PANEL_UNRESPONSIVE, the lines keeping their levels (R569). -/
def Obligations.BarrierTimesOut : Prop :=
  ∀ (s : State) (iv T : Nat) (rest : List Level), s.issue = none → s.inputs = [] → s.life = .refreshing →
    s.dir = Dirs.claimed → s.cfg.busyTimeout = some T → s.prog[s.upc]? = some (.b iv) → 0 < iv → s.elapsed = 0 →
    s.busyIn = List.replicate ((T + iv - 1) / iv + 1) .high ++ rest →
    runs ((T + iv - 1) / iv + 1) s = .next { s with
      busyIn := rest, life := .ready, upc := 0, prog := [], elapsed := 0
      trace := .resp opRefresh .panelUnresponsive 0 :: .rd .high ::
        (List.replicate ((T + iv - 1) / iv) [Event.dly iv, Event.rd .high]).flatten ++ s.trace }

/-- With no timeout a barrier whose BUSY reads HIGH never passes: after any number n of steps it has made n reads and
n delays, the refresh still runs at the same micro-op, and no response was given (R573, R709). -/
def Obligations.StuckBusyHangs : Prop :=
  ∀ (s : State) (iv n : Nat) (rest : List Level), s.issue = none → s.inputs = [] → s.life = .refreshing →
    s.dir = Dirs.claimed → s.cfg.busyTimeout = none → s.prog[s.upc]? = some (.b iv) →
    s.busyIn = List.replicate n .high ++ rest →
    runs n s = .next { s with
      busyIn := rest, elapsed := s.elapsed + n * iv
      trace := (List.replicate n [Event.dly iv, Event.rd .high]).flatten ++ s.trace }

/-- At UPC = |PROG| the refresh responds OK, and the sequencer is empty and READY again; the lines keep their levels
(R568). -/
def Obligations.EndOfProgramRespondsOk : Prop :=
  ∀ s : State, s.upc = s.prog.length →
    sequencerStep s = .next { s with
      life := .ready, upc := 0, prog := [], elapsed := 0, trace := .resp opRefresh .ok 0 :: s.trace }

/-- UPC never moves backwards and never skips during a refresh: a step leaves it, advances it by one, or ends the
refresh (R112, R570). -/
def Obligations.UpcStaysAdvancesByOneOrTheRefreshEnds : Prop :=
  ∀ s t : State, s.issue = none → s.life = .refreshing → s.inputs.head? ≠ some .powerCycle → step s = .next t →
    (t.life = .refreshing ∧ t.prog = s.prog ∧
      (t.upc = s.upc ∨ t.upc = s.upc + 1 ∧ s.upc < s.prog.length)) ∨
    (t.life = .ready ∧ t.prog = [] ∧ t.upc = 0)

/-- The transactions of one refresh as a receiver reads them (43_sequencer.md R551 under R460; 95_test_vectors.md
section 1.2), `rows` the row stream. -/
def refreshLog (rows : List Byte) : List WireFrame :=
  let f (op : Byte) (d : List Byte) : WireFrame :=
    ⟨.command, some op⟩ :: d.map fun b => ⟨.data, some b⟩
  [f 0x12 [], f 0x01 [0x27, 0x01, 0x00], f 0x11 [0x01], f 0x44 [0x00, 0x18], f 0x45 [0x27, 0x01, 0x00, 0x00],
   f 0x22 [0xB1], f 0x20 [], f 0x4E [0x00], f 0x4F [0x27, 0x01], f 0x24 (rows.map wireOf),
   f 0x4E [0x00], f 0x4F [0x27, 0x01], f 0x26 (rows.map wireOf), f 0x22 [0xC7], f 0x20 [], f 0x10 [0x01]]

/-- A whole refresh (R551, R568, R570, R815): accepted in READY, with BUSY HIGH n₁, n₂, n₃ and n₄ times at its four
barriers before it is LOW, and without a timeout or with a timeout T under which every barrier sees LOW in time (nᵢ at
most ceil(T / ivᵢ)), it ends after |PROG| + n₁ + n₂ + n₃ + n₄ + 1 sequencer steps with the response OK; the receiver
has read the sixteen transactions in order, all five lines are HIGH, and FB and FAULT are as before. -/
def Obligations.WholeRefreshEmitsTheTransactionLog : Prop :=
  ∀ (s : State) (w : HostWord) (n1 n2 n3 n4 : Nat) (rest : List Level),
    Inv s → TraceAccounts s → FramesClosed s → s.life = .ready →
    (∀ T, s.cfg.busyTimeout = some T →
      n1 ≤ (T + 9) / 10 ∧ n2 ≤ (T + 9) / 10 ∧ n3 ≤ (T + 49) / 50 ∧ n4 ≤ (T + 49) / 50) →
    s.inputs = [.word w] → decodeHost w = .refresh →
    s.busyIn = List.replicate n1 .high ++ .low :: (List.replicate n2 .high ++ .low ::
      (List.replicate n3 .high ++ .low :: (List.replicate n4 .high ++ .low :: rest))) →
    ∃ t, runs ((program s.cfg s.fb).length + n1 + n2 + n3 + n4 + 2) s = .next t ∧
      transactionLog t.trace = transactionLog s.trace ++ refreshLog (streamRows s.cfg s.fb) ∧
      t.trace.head? = some (.resp opRefresh .ok 0) ∧
      t.life = .ready ∧ t.upc = 0 ∧ t.prog = [] ∧ t.elapsed = 0 ∧
      t.lvl = ⟨some .high, some .high, some .high, some .high, some .high⟩ ∧
      t.dir = s.dir ∧ t.cfg = s.cfg ∧ t.fb = s.fb ∧ t.faultHostConflict = s.faultHostConflict ∧ t.busyIn = rest

/-- With a timeout T every refresh ends (R815): from its start, whatever BUSY reads, within |PROG| − 4 steps for the
writes and delays, ceil(T / iv) + 1 for each barrier, and one for the response; it adds at most |PROG| − 4 events and
2·ceil(T / iv) + 1 for each barrier to TRACE besides its response. It responds OK when each of its four barriers has
read LOW, and PANEL_UNRESPONSIVE when fewer have. -/
def Obligations.RefreshWithTimeoutEnds : Prop :=
  ∀ (s : State) (T : Nat), Inv s → s.life = .refreshing → s.upc = 0 → s.inputs = [] →
    s.cfg.busyTimeout = some T →
    ∃ n t, n ≤ (s.prog.length - 4) + 2 * ((T + 9) / 10 + 1) + 2 * ((T + 49) / 50 + 1) + 1 ∧
      runs n s = .next t ∧ t.life = .ready ∧
      t.trace.length ≤ s.trace.length + (s.prog.length - 4) + 2 * (2 * ((T + 9) / 10) + 1) +
        2 * (2 * ((T + 49) / 50) + 1) + 1 ∧
      (t.trace.head? = some (.resp opRefresh .ok 0) ∧
          t.trace.count (.rd .low) = s.trace.count (.rd .low) + 4 ∨
        t.trace.head? = some (.resp opRefresh .panelUnresponsive 0) ∧
          t.trace.count (.rd .low) < s.trace.count (.rd .low) + 4)

/-- The mandatory barriers and the reset pulse (R807, R808): the program has exactly four ready barriers, right after
the frames of 0x12, 0x01 and the two 0x20, and before the 0x12 frame the pulse RST LOW, 10 ms, RST HIGH, 10 ms. -/
def Obligations.ProgramHasItsFourBarriers : Prop :=
  ∀ (c : Cfg) (m : Memory), ∃ p1 p2 p3 p4 p5 : List MicroOp,
    program c m =
      p1 ++ [.w .rst .low, .d 10, .w .rst .high, .d 10] ++ send 0x12 [] ++ [.b 10] ++ p2 ++
        send 0x01 [0x27, 0x01, 0x00] ++ [.b 10] ++ p3 ++ send 0x20 [] ++ [.b 50] ++ p4 ++
        send 0x20 [] ++ [.b 50] ++ p5 ∧
    (∀ op ∈ p1 ++ p2 ++ p3 ++ p4 ++ p5, ∃ p l, op = .w p l) ∧
    (∀ op ∈ p1, ∀ l, op ≠ .w .cs l ∨ l = .high)

/-! ### Frames on the wire -/

/-- A receiver reads a `send` frame as its command byte and its data bytes, and a `streamFrame` frame as its command
byte and wire(s) = bitrev8(~s) for every row-stream byte, from which s is read back (R460, R461). -/
def Obligations.ReceiverReadsTheFrames : Prop :=
  (∀ (r : Receiver) (op : Byte) (d : List Byte), r.lines.cs ≠ some .low →
    (observeAll r ((send op d).flatMap eventsOf)).frames =
      (⟨.command, some op⟩ :: d.map fun b => ⟨.data, some b⟩) :: r.frames) ∧
  (∀ (r : Receiver) (op : Byte) (rows : List Byte), r.lines.cs ≠ some .low →
    (observeAll r ((streamFrame op rows).flatMap eventsOf)).frames =
      (⟨.command, some op⟩ :: rows.map fun b => ⟨.data, some (wireOf b)⟩) :: r.frames) ∧
  (∀ b : Byte, (∀ k, k < 8 → (wireOf b).getLsbD k = !b.getLsbD (7 - k)) ∧ ~~~(bitrev8 (wireOf b)) = b)

/-- Every transaction begins with W(CS, LOW) and ends with W(CS, HIGH), and CS is written nowhere in between (R458).
-/
def Obligations.FramesBracketThemselves : Prop :=
  ∀ (i : Instr) (c : Cfg) (m : Memory), i.isHost = false →
    ∃ mid, frameOf i c m = .w .cs .low :: mid ++ [.w .cs .high] ∧
      ∀ op ∈ mid, ∃ p l, op = .w p l ∧ p ≠ .cs ∧ p ≠ .rst

/-- In every frame each fall of CLK comes right after a write of DIN and right before the rise of CLK (R453, R809). -/
def Obligations.BitCellsKeepTheirOrder : Prop :=
  ∀ (i : Instr) (c : Cfg) (m : Memory) (k : Nat),
    (frameOf i c m)[k]? = some (.w .clk .low) →
    ∃ j v, k = j + 1 ∧ (frameOf i c m)[j]? = some (.w .din v) ∧ (frameOf i c m)[k + 1]? = some (.w .clk .high)

/-- DC is written LOW once, before the command byte, and HIGH before every data byte, and CLK rises 8 times per byte
(R462, R456, R457). -/
def Obligations.DcAndClockEdgesOfAFrame : Prop :=
  ∀ (op : Byte) (d : List Byte),
    (send op d).filter (fun m => m == .w .dc .low || m == .w .dc .high) =
      .w .dc .low :: List.replicate d.length (.w .dc .high) ∧
    (streamFrame op d).filter (fun m => m == .w .dc .low || m == .w .dc .high) =
      .w .dc .low :: List.replicate d.length (.w .dc .high) ∧
    (send op d).count (.w .clk .high) = 8 * (1 + d.length) ∧
    (streamFrame op d).count (.w .clk .high) = 8 * (1 + d.length)

/-- The sizes R456, R457 and R572 derive: a frame of k data bytes has 27 + 25·k micro-ops; the program has 920 +
50·W·VIRTUAL_Y, two of them delays and four of them barriers; 326520 for TARGET. -/
def Obligations.SizesOfFramesAndProgram : Prop :=
  (∀ (op : Byte) (d : List Byte), (send op d).length = 27 + 25 * d.length ∧
    (streamFrame op d).length = 27 + 25 * d.length) ∧
  (∀ (c : Cfg) (m : Memory), (program c m).length = 920 + 50 * (c.w.toNat * Config.target.virtualY) ∧
    (program c m).countP MicroOp.isWrite =
      914 + 50 * (c.w.toNat * Config.target.virtualY) ∧
    (program c m).filter (fun op => !op.isWrite) =
      [.d 10, .d 10, .b 10, .b 10, .b 50, .b 50] ∧
    (c.w = 296 → (program c m).length = 326520))

/-- The row stream (R408, R409, R410): W·VIRTUAL_Y bytes; position x·VIRTUAL_Y + j is byte (x, j − OFFSET_Y) of FB for
OFFSET_Y ≤ j < OFFSET_Y + HB and PAD_VALUE otherwise; OFFSET_Y is 1 and VIRTUAL_Y 22. -/
def Obligations.RowStreamLayout : Prop :=
  ∀ (c : Cfg) (m : Memory),
    (streamRows c m).length = c.w.toNat * 22 ∧
    ∀ x j, x < c.w.toNat → j < 22 →
      (streamRows c m)[x * 22 + j]? =
        some (if 1 ≤ j ∧ j < 1 + c.hb.toNat then fbRead m (x * c.hb.toNat + (j - 1)) else c.padValue)

/-! ### Wire commands -/

/-- The wire commands sent with `send`, as R308 lists them: instruction, opcode, payload. -/
def sendCommands : List (Instr × Byte × List Byte) :=
  [(.drvOutCtrl, 0x01, [0x27, 0x01, 0x00]), (.deepSleep, 0x10, [0x01]), (.dataEntry, 0x11, [0x01]),
   (.swReset, 0x12, []), (.masterAct, 0x20, []), (.updSeq .loadLut, 0x22, [0xB1]),
   (.updSeq .fullRefresh, 0x22, [0xC7]), (.ramXWin, 0x44, [0x00, 0x18]),
   (.ramYWin, 0x45, [0x27, 0x01, 0x00, 0x00]), (.ramXPtr, 0x4E, [0x00]), (.ramYPtr, 0x4F, [0x27, 0x01])]

/-- Each `send` command, in a refresh with the pins claimed, completes: it writes the pins as SEND(op, d) lists them,
moves UPC past them, leaves CS and CLK HIGH, DC LOW with no payload and HIGH with one, DIN at the last byte's bit 0
and RST as it was, and changes nothing else (R456, R502 to R510, R513). -/
def Obligations.SendCommandsEmitTheirFrames : Prop :=
  ∀ (i : Instr) (op : Byte) (d : List Byte) (s : State), (i, op, d) ∈ sendCommands →
    s.life = .refreshing → s.dir = Dirs.claimed →
    ∃ t, exec i s = .next t ∧ SameButWires s t ∧
      t.upc = s.upc + (27 + 25 * d.length) ∧
      t.trace = ((send op d).flatMap eventsOf).reverse ++ s.trace ∧
      t.lvl = ⟨some (lvlOf ((d.getLastD op).getLsbD 0)), some .high, some .high,
        some (if d = [] then .low else .high), s.lvl.rst⟩

/-- The two frame writes, in a refresh with the pins claimed, complete: they write the pins as STREAMFRAME lists them
over the row stream of FB, move UPC past them, leave CS and CLK HIGH, DC HIGH, DIN at the inverse of the last byte's
bit 7 and RST as it was, and change nothing else (R457, R511, R512). A frame of no byte (W = 0, which INIT refuses)
leaves DC and DIN as the opcode left them. -/
def Obligations.FrameWritesEmitTheRowStream : Prop :=
  ∀ (i : Instr) (op : Byte) (s : State), (i, op) ∈ [(Instr.writeRamPri, (0x24 : Byte)), (.writeRamSec, 0x26)] →
    s.life = .refreshing → s.dir = Dirs.claimed →
    ∃ t, exec i s = .next t ∧ SameButWires s t ∧
      t.upc = s.upc + (27 + 25 * (s.cfg.w.toNat * 22)) ∧
      t.trace = ((streamFrame op (streamRows s.cfg s.fb)).flatMap eventsOf).reverse ++ s.trace ∧
      t.lvl.cs = some .high ∧ t.lvl.clk = some .high ∧ t.lvl.rst = s.lvl.rst ∧
      t.lvl.dc = some (if s.cfg.w = 0 then .low else .high) ∧
      t.lvl.din = some (match (streamRows s.cfg s.fb).getLast? with
        | some b => lvlOf (!b.getLsbD 7)
        | none => lvlOf (op.getLsbD 0))

/-- The model's choice (log entry 8): a wire command executed while no refresh runs stops, since only the sequencer
emits one (R314). -/
def Obligations.WireCommandsStopOutsideARefresh : Prop :=
  ∀ (i : Instr) (s : State), i.isHost = false → s.life ≠ .refreshing → exec i s = .fault .wireOutsideRefresh

/-! ### The whole machine -/

/-- The values after power-on (R118, R10). That CFG.W, CFG.H and CFG.HB are 0 there is the model's choice (log entry
1); FB_CAPACITY is free but for its bound (log entry 5). -/
def Obligations.ResetValues : Prop :=
  State.reset.life = .unbound ∧ State.reset.cfg.w = 0 ∧ State.reset.cfg.h = 0 ∧ State.reset.cfg.hb = 0 ∧
  State.reset.cfg.padValue = 0x00 ∧ State.reset.cfg.busyTimeout = none ∧ 4736 ≤ State.reset.cfg.fbCapacity ∧
  State.reset.fb = [] ∧ (∀ p, dirOf State.reset.dir p = .unconfigured) ∧ (∀ p, lineOf State.reset.lvl p = none) ∧
  State.reset.upc = 0 ∧ State.reset.prog = [] ∧ State.reset.elapsed = 0 ∧
  State.reset.faultHostConflict = false ∧ State.reset.trace = []

/-- The invariants hold after power-on (R118). The model's own in them: a geometry of 0 before INIT, where R118 says
none (log entry 1), the canonical form of FB (log entry 2), the empty latch (log entry 8) and the lines a receiver has
seen after a Cfg event (log entry 21). -/
def Obligations.InvariantsHoldAtReset : Prop :=
  Inv State.reset ∧ TraceAccounts State.reset ∧ FramesClosed State.reset

/-- Every step keeps the invariant of Safety.lean (R103, R105 to R108, R112 to R114, R118). Three of its clauses are
the model's own: the geometry is 0 before INIT, where R118 says none (log entry 1), FB is in its canonical form (log
entry 2), and no frame is issued from outside (log entry 8). -/
def Obligations.StepKeepsTheInvariant : Prop :=
  ∀ s t : State, Inv s → step s = .next t → Inv t

/-- A state with the invariant never stops: every step has a next state (R701: no condition stops the block; the hang
and the refusals are next states too). The invariant's clauses that are the model's own are named at
Obligations.StepKeepsTheInvariant. -/
def Obligations.StepNeverStops : Prop :=
  ∀ s : State, Inv s → ∃ t, step s = .next t

/-- LVL, DIR and FAULT are at every moment what TRACE tells (R107, R108, R115, R131). That a Cfg event makes its line
unknown to a receiver is the model's choice (log entry 21). -/
def Obligations.StepKeepsTraceAccounts : Prop :=
  ∀ s t : State, TraceAccounts s → step s = .next t → TraceAccounts t

/-- CS is LOW only inside a frame of the running program: no refresh that ends, by its last micro-op or by a timeout,
leaves a frame open (R458). -/
def Obligations.StepKeepsFramesClosed : Prop :=
  ∀ s t : State, Inv s → FramesClosed s → step s = .next t → FramesClosed t

/-- Every response says what R302 and R702 allow, and a response OK that a step gives to a WIDTH or HEIGHT has the
VALUE CFG.W or CFG.H (R302; Obligations.WidthAndHeightRespondTheGeometry says when it is given). -/
def Obligations.ResponsesAreLawful : Prop :=
  (∀ s t : State, (∀ e ∈ s.trace, Event.lawful e = true) → step s = .next t →
    ∀ e ∈ t.trace, Event.lawful e = true) ∧
  (∀ (s t : State) (v : Half), step s = .next t →
    (t.trace = .resp opWidth .ok v :: s.trace → v = s.cfg.w) ∧
    (t.trace = .resp opHeight .ok v :: s.trace → v = s.cfg.h))

/-- A host word gets exactly one response, at once, but for a REFRESH that is accepted, which gets none until it ends
(R302, R601, R610). -/
def Obligations.OneResponsePerHostWord : Prop :=
  ∀ (s t : State) (w : HostWord) (rest : List Input), s.issue = none → s.inputs = .word w :: rest →
    step s = .next t →
    t.trace.countP Event.isResp =
      s.trace.countP Event.isResp + if decodeHost w = .refresh ∧ s.life = .ready then 0 else 1

/-- FAULT is sticky: no step but a power cycle clears it, and only a host word during a refresh sets it (R115, R708).
-/
def Obligations.FaultIsSticky : Prop :=
  ∀ s t : State, s.issue = none → step s = .next t → s.inputs.head? ≠ some .powerCycle →
    (s.faultHostConflict = true → t.faultHostConflict = true) ∧
    (s.faultHostConflict = false → t.faultHostConflict = true →
      s.life = .refreshing ∧ ∃ w, s.inputs.head? = some (.word w))

/-- DIR changes only by an INIT that accepts its geometry, by TEARDOWN and by power-on, and LVL only by these and the
micro-op W (R107, R108). -/
def Obligations.PinStateChangesOnlyThere : Prop :=
  ∀ s t : State, s.issue = none → step s = .next t →
    (t.dir ≠ s.dir → s.inputs.head? = some .powerCycle ∨
      ∃ w, s.inputs.head? = some (.word w) ∧
        ((∃ x y, decodeHost w = .init x y ∧ geometryOk s.cfg.fbCapacity x y = true) ∧ s.life = .unbound ∨
          decodeHost w = .teardown ∧ s.life = .ready)) ∧
    (t.lvl ≠ s.lvl → s.inputs.head? = some .powerCycle ∨
      (s.life = .refreshing ∧ ∃ p l, s.prog[s.upc]? = some (.w p l)) ∨
      ∃ w, s.inputs.head? = some (.word w) ∧
        ((∃ x y, decodeHost w = .init x y ∧ geometryOk s.cfg.fbCapacity x y = true) ∧ s.life = .unbound ∨
          decodeHost w = .teardown ∧ s.life = .ready))

/-- FB is written only by an INIT that accepts its geometry, CLEAR and SETPX, and by nothing during a refresh (R106,
R811). -/
def Obligations.FramebufferChangesOnlyThere : Prop :=
  ∀ s t : State, s.issue = none → step s = .next t → t.fb ≠ s.fb →
    s.inputs.head? = some .powerCycle ∨
    ∃ w, s.inputs.head? = some (.word w) ∧
      (s.life = .unbound ∧ (∃ x y, decodeHost w = .init x y ∧ geometryOk s.cfg.fbCapacity x y = true) ∨
       s.life = .ready ∧ (decodeHost w = .clear ∨ ∃ x y d, decodeHost w = .setpx x y d))

/-- CFG is written only by an INIT that accepts its geometry, and the instance parameters by nothing, a power cycle
included (R103, R118). -/
def Obligations.ConfigurationIsReadOnly : Prop :=
  ∀ s t : State, step s = .next t →
    t.cfg.padValue = s.cfg.padValue ∧ t.cfg.busyTimeout = s.cfg.busyTimeout ∧ t.cfg.fbCapacity = s.cfg.fbCapacity ∧
    (t.cfg ≠ s.cfg → s.inputs.head? = some .powerCycle ∨
      ∃ w x y, s.inputs.head? = some (.word w) ∧ decodeHost w = .init x y ∧ s.life = .unbound ∧
        geometryOk s.cfg.fbCapacity x y = true)

/-- RELEASED is terminal (R105, R609): only a power cycle leaves it, and every other step changes at most TRACE and
takes the input. -/
def Obligations.ReleasedIsTerminal : Prop :=
  ∀ s t : State, s.issue = none → s.life = .released → s.inputs.head? ≠ some .powerCycle → step s = .next t →
    { t with trace := s.trace } = { s with inputs := s.inputs.tail }

/-- Power-on puts every state element at its power-on value, whatever the state was (R801, R118). That the geometry is
then 0, where R118 says none, is the model's choice (log entry 1), and so is that the instance parameters and the
further inputs stay (log entry 7). -/
def Obligations.PowerCycleResetsTheBlock : Prop :=
  ∀ (s : State) (rest : List Input), s.issue = none → s.inputs = .powerCycle :: rest →
    ∃ t, step s = .next t ∧ t.life = .unbound ∧ t.fb = [] ∧ t.dir = State.reset.dir ∧ t.lvl = State.reset.lvl ∧
      t.upc = 0 ∧ t.prog = [] ∧ t.elapsed = 0 ∧ t.faultHostConflict = false ∧ t.trace = [] ∧
      t.cfg = { s.cfg with w := 0, h := 0, hb := 0 } ∧ t.inputs = rest

/-- BUSY is read only at the ready barriers of a refresh (R711, R808). -/
def Obligations.BusyIsReadOnlyAtBarriers : Prop :=
  ∀ s t : State, s.issue = none → step s = .next t →
    s.trace.countP Event.isRead < t.trace.countP Event.isRead →
    s.life = .refreshing ∧ ∃ iv, s.prog[s.upc]? = some (.b iv)
end

