-- ==== Sys2Proof/Laws/State.lean ====
section
/-! SUPPORT. One lemma per field per named update of State, so that no proof unfolds a record update. -/

namespace Sys2Proof.Machine

variable (s : State)

@[simp] theorem record_cfg (e : Event) : (record e s).cfg = s.cfg := rfl
@[simp] theorem record_life (e : Event) : (record e s).life = s.life := rfl
@[simp] theorem record_fb (e : Event) : (record e s).fb = s.fb := rfl
@[simp] theorem record_dir (e : Event) : (record e s).dir = s.dir := rfl
@[simp] theorem record_lvl (e : Event) : (record e s).lvl = s.lvl := rfl
@[simp] theorem record_upc (e : Event) : (record e s).upc = s.upc := rfl
@[simp] theorem record_prog (e : Event) : (record e s).prog = s.prog := rfl
@[simp] theorem record_elapsed (e : Event) : (record e s).elapsed = s.elapsed := rfl
@[simp] theorem record_faultHostConflict (e : Event) : (record e s).faultHostConflict = s.faultHostConflict := rfl
@[simp] theorem record_trace (e : Event) : (record e s).trace = e :: s.trace := rfl
@[simp] theorem record_inputs (e : Event) : (record e s).inputs = s.inputs := rfl
@[simp] theorem record_busyIn (e : Event) : (record e s).busyIn = s.busyIn := rfl
@[simp] theorem record_draws (e : Event) : (record e s).draws = s.draws := rfl
@[simp] theorem record_issue (e : Event) : (record e s).issue = s.issue := rfl

@[simp] theorem respond_cfg (op : OpCode) (st : Status) (v : Half) : (respond op st v s).cfg = s.cfg := rfl
@[simp] theorem respond_life (op : OpCode) (st : Status) (v : Half) : (respond op st v s).life = s.life := rfl
@[simp] theorem respond_fb (op : OpCode) (st : Status) (v : Half) : (respond op st v s).fb = s.fb := rfl
@[simp] theorem respond_dir (op : OpCode) (st : Status) (v : Half) : (respond op st v s).dir = s.dir := rfl
@[simp] theorem respond_lvl (op : OpCode) (st : Status) (v : Half) : (respond op st v s).lvl = s.lvl := rfl
@[simp] theorem respond_upc (op : OpCode) (st : Status) (v : Half) : (respond op st v s).upc = s.upc := rfl
@[simp] theorem respond_prog (op : OpCode) (st : Status) (v : Half) : (respond op st v s).prog = s.prog := rfl
@[simp] theorem respond_elapsed (op : OpCode) (st : Status) (v : Half) :
    (respond op st v s).elapsed = s.elapsed := rfl
@[simp] theorem respond_faultHostConflict (op : OpCode) (st : Status) (v : Half) :
    (respond op st v s).faultHostConflict = s.faultHostConflict := rfl
@[simp] theorem respond_trace (op : OpCode) (st : Status) (v : Half) :
    (respond op st v s).trace = .resp op st v :: s.trace := rfl
@[simp] theorem respond_inputs (op : OpCode) (st : Status) (v : Half) : (respond op st v s).inputs = s.inputs := rfl
@[simp] theorem respond_busyIn (op : OpCode) (st : Status) (v : Half) : (respond op st v s).busyIn = s.busyIn := rfl
@[simp] theorem respond_draws (op : OpCode) (st : Status) (v : Half) : (respond op st v s).draws = s.draws := rfl
@[simp] theorem respond_issue (op : OpCode) (st : Status) (v : Half) : (respond op st v s).issue = s.issue := rfl

@[simp] theorem delay_cfg (ms : Nat) : (delay ms s).cfg = s.cfg := rfl
@[simp] theorem delay_life (ms : Nat) : (delay ms s).life = s.life := rfl
@[simp] theorem delay_fb (ms : Nat) : (delay ms s).fb = s.fb := rfl
@[simp] theorem delay_dir (ms : Nat) : (delay ms s).dir = s.dir := rfl
@[simp] theorem delay_lvl (ms : Nat) : (delay ms s).lvl = s.lvl := rfl
@[simp] theorem delay_upc (ms : Nat) : (delay ms s).upc = s.upc := rfl
@[simp] theorem delay_prog (ms : Nat) : (delay ms s).prog = s.prog := rfl
@[simp] theorem delay_elapsed (ms : Nat) : (delay ms s).elapsed = s.elapsed := rfl
@[simp] theorem delay_faultHostConflict (ms : Nat) : (delay ms s).faultHostConflict = s.faultHostConflict := rfl
@[simp] theorem delay_trace (ms : Nat) : (delay ms s).trace = .dly ms :: s.trace := rfl
@[simp] theorem delay_inputs (ms : Nat) : (delay ms s).inputs = s.inputs := rfl
@[simp] theorem delay_busyIn (ms : Nat) : (delay ms s).busyIn = s.busyIn := rfl
@[simp] theorem delay_draws (ms : Nat) : (delay ms s).draws = s.draws := rfl
@[simp] theorem delay_issue (ms : Nat) : (delay ms s).issue = s.issue := rfl

@[simp] theorem setHostConflict_cfg : (setHostConflict s).cfg = s.cfg := rfl
@[simp] theorem setHostConflict_life : (setHostConflict s).life = s.life := rfl
@[simp] theorem setHostConflict_fb : (setHostConflict s).fb = s.fb := rfl
@[simp] theorem setHostConflict_dir : (setHostConflict s).dir = s.dir := rfl
@[simp] theorem setHostConflict_lvl : (setHostConflict s).lvl = s.lvl := rfl
@[simp] theorem setHostConflict_upc : (setHostConflict s).upc = s.upc := rfl
@[simp] theorem setHostConflict_prog : (setHostConflict s).prog = s.prog := rfl
@[simp] theorem setHostConflict_elapsed : (setHostConflict s).elapsed = s.elapsed := rfl
@[simp] theorem setHostConflict_faultHostConflict : (setHostConflict s).faultHostConflict = true := rfl
@[simp] theorem setHostConflict_trace : (setHostConflict s).trace = s.trace := rfl
@[simp] theorem setHostConflict_inputs : (setHostConflict s).inputs = s.inputs := rfl
@[simp] theorem setHostConflict_busyIn : (setHostConflict s).busyIn = s.busyIn := rfl
@[simp] theorem setHostConflict_draws : (setHostConflict s).draws = s.draws := rfl
@[simp] theorem setHostConflict_issue : (setHostConflict s).issue = s.issue := rfl

@[simp] theorem memWrite_cfg (a : Nat) (v : Byte) : (memWrite s a v).cfg = s.cfg := rfl
@[simp] theorem memWrite_life (a : Nat) (v : Byte) : (memWrite s a v).life = s.life := rfl
@[simp] theorem memWrite_fb (a : Nat) (v : Byte) : (memWrite s a v).fb = fbWrite s.fb a v := rfl
@[simp] theorem memWrite_dir (a : Nat) (v : Byte) : (memWrite s a v).dir = s.dir := rfl
@[simp] theorem memWrite_lvl (a : Nat) (v : Byte) : (memWrite s a v).lvl = s.lvl := rfl
@[simp] theorem memWrite_upc (a : Nat) (v : Byte) : (memWrite s a v).upc = s.upc := rfl
@[simp] theorem memWrite_prog (a : Nat) (v : Byte) : (memWrite s a v).prog = s.prog := rfl
@[simp] theorem memWrite_elapsed (a : Nat) (v : Byte) : (memWrite s a v).elapsed = s.elapsed := rfl
@[simp] theorem memWrite_faultHostConflict (a : Nat) (v : Byte) :
    (memWrite s a v).faultHostConflict = s.faultHostConflict := rfl
@[simp] theorem memWrite_trace (a : Nat) (v : Byte) : (memWrite s a v).trace = s.trace := rfl
@[simp] theorem memWrite_inputs (a : Nat) (v : Byte) : (memWrite s a v).inputs = s.inputs := rfl
@[simp] theorem memWrite_busyIn (a : Nat) (v : Byte) : (memWrite s a v).busyIn = s.busyIn := rfl
@[simp] theorem memWrite_draws (a : Nat) (v : Byte) : (memWrite s a v).draws = s.draws := rfl
@[simp] theorem memWrite_issue (a : Nat) (v : Byte) : (memWrite s a v).issue = s.issue := rfl

@[simp] theorem fbClear_cfg : (fbClear s).cfg = s.cfg := rfl
@[simp] theorem fbClear_life : (fbClear s).life = s.life := rfl
@[simp] theorem fbClear_fb : (fbClear s).fb = [] := rfl
@[simp] theorem fbClear_dir : (fbClear s).dir = s.dir := rfl
@[simp] theorem fbClear_lvl : (fbClear s).lvl = s.lvl := rfl
@[simp] theorem fbClear_upc : (fbClear s).upc = s.upc := rfl
@[simp] theorem fbClear_prog : (fbClear s).prog = s.prog := rfl
@[simp] theorem fbClear_elapsed : (fbClear s).elapsed = s.elapsed := rfl
@[simp] theorem fbClear_faultHostConflict : (fbClear s).faultHostConflict = s.faultHostConflict := rfl
@[simp] theorem fbClear_trace : (fbClear s).trace = s.trace := rfl
@[simp] theorem fbClear_inputs : (fbClear s).inputs = s.inputs := rfl
@[simp] theorem fbClear_busyIn : (fbClear s).busyIn = s.busyIn := rfl
@[simp] theorem fbClear_draws : (fbClear s).draws = s.draws := rfl
@[simp] theorem fbClear_issue : (fbClear s).issue = s.issue := rfl

@[simp] theorem pinConfigure_cfg (p : Pin) (d : Dir) : (pinConfigure p d s).cfg = s.cfg := rfl
@[simp] theorem pinConfigure_life (p : Pin) (d : Dir) : (pinConfigure p d s).life = s.life := rfl
@[simp] theorem pinConfigure_fb (p : Pin) (d : Dir) : (pinConfigure p d s).fb = s.fb := rfl
@[simp] theorem pinConfigure_dir (p : Pin) (d : Dir) : (pinConfigure p d s).dir = setDir s.dir p d := rfl
@[simp] theorem pinConfigure_lvl (p : Pin) (d : Dir) : (pinConfigure p d s).lvl = s.lvl := rfl
@[simp] theorem pinConfigure_upc (p : Pin) (d : Dir) : (pinConfigure p d s).upc = s.upc := rfl
@[simp] theorem pinConfigure_prog (p : Pin) (d : Dir) : (pinConfigure p d s).prog = s.prog := rfl
@[simp] theorem pinConfigure_elapsed (p : Pin) (d : Dir) : (pinConfigure p d s).elapsed = s.elapsed := rfl
@[simp] theorem pinConfigure_faultHostConflict (p : Pin) (d : Dir) :
    (pinConfigure p d s).faultHostConflict = s.faultHostConflict := rfl
@[simp] theorem pinConfigure_trace (p : Pin) (d : Dir) : (pinConfigure p d s).trace = .cfg p d :: s.trace := rfl
@[simp] theorem pinConfigure_inputs (p : Pin) (d : Dir) : (pinConfigure p d s).inputs = s.inputs := rfl
@[simp] theorem pinConfigure_busyIn (p : Pin) (d : Dir) : (pinConfigure p d s).busyIn = s.busyIn := rfl
@[simp] theorem pinConfigure_draws (p : Pin) (d : Dir) : (pinConfigure p d s).draws = s.draws := rfl
@[simp] theorem pinConfigure_issue (p : Pin) (d : Dir) : (pinConfigure p d s).issue = s.issue := rfl

@[simp] theorem advanceUpc_cfg : (advanceUpc s).cfg = s.cfg := rfl
@[simp] theorem advanceUpc_life : (advanceUpc s).life = s.life := rfl
@[simp] theorem advanceUpc_fb : (advanceUpc s).fb = s.fb := rfl
@[simp] theorem advanceUpc_dir : (advanceUpc s).dir = s.dir := rfl
@[simp] theorem advanceUpc_lvl : (advanceUpc s).lvl = s.lvl := rfl
@[simp] theorem advanceUpc_upc : (advanceUpc s).upc = s.upc + 1 := rfl
@[simp] theorem advanceUpc_prog : (advanceUpc s).prog = s.prog := rfl
@[simp] theorem advanceUpc_elapsed : (advanceUpc s).elapsed = s.elapsed := rfl
@[simp] theorem advanceUpc_faultHostConflict : (advanceUpc s).faultHostConflict = s.faultHostConflict := rfl
@[simp] theorem advanceUpc_trace : (advanceUpc s).trace = s.trace := rfl
@[simp] theorem advanceUpc_inputs : (advanceUpc s).inputs = s.inputs := rfl
@[simp] theorem advanceUpc_busyIn : (advanceUpc s).busyIn = s.busyIn := rfl
@[simp] theorem advanceUpc_draws : (advanceUpc s).draws = s.draws := rfl
@[simp] theorem advanceUpc_issue : (advanceUpc s).issue = s.issue := rfl

@[simp] theorem busyRead_cfg : (busyRead s).cfg = s.cfg := rfl
@[simp] theorem busyRead_life : (busyRead s).life = s.life := rfl
@[simp] theorem busyRead_fb : (busyRead s).fb = s.fb := rfl
@[simp] theorem busyRead_dir : (busyRead s).dir = s.dir := rfl
@[simp] theorem busyRead_lvl : (busyRead s).lvl = s.lvl := rfl
@[simp] theorem busyRead_upc : (busyRead s).upc = s.upc := rfl
@[simp] theorem busyRead_prog : (busyRead s).prog = s.prog := rfl
@[simp] theorem busyRead_elapsed : (busyRead s).elapsed = s.elapsed := rfl
@[simp] theorem busyRead_faultHostConflict : (busyRead s).faultHostConflict = s.faultHostConflict := rfl
@[simp] theorem busyRead_trace : (busyRead s).trace = .rd (nextBusy s) :: s.trace := rfl
@[simp] theorem busyRead_inputs : (busyRead s).inputs = s.inputs := rfl
@[simp] theorem busyRead_busyIn : (busyRead s).busyIn = s.busyIn.tail := rfl
@[simp] theorem busyRead_draws : (busyRead s).draws = if s.busyIn.isEmpty then s.draws + 1 else s.draws := rfl
@[simp] theorem busyRead_issue : (busyRead s).issue = s.issue := rfl

@[simp] theorem barrierPass_cfg : (barrierPass s).cfg = s.cfg := rfl
@[simp] theorem barrierPass_life : (barrierPass s).life = s.life := rfl
@[simp] theorem barrierPass_fb : (barrierPass s).fb = s.fb := rfl
@[simp] theorem barrierPass_dir : (barrierPass s).dir = s.dir := rfl
@[simp] theorem barrierPass_lvl : (barrierPass s).lvl = s.lvl := rfl
@[simp] theorem barrierPass_upc : (barrierPass s).upc = s.upc + 1 := rfl
@[simp] theorem barrierPass_prog : (barrierPass s).prog = s.prog := rfl
@[simp] theorem barrierPass_elapsed : (barrierPass s).elapsed = 0 := rfl
@[simp] theorem barrierPass_faultHostConflict : (barrierPass s).faultHostConflict = s.faultHostConflict := rfl
@[simp] theorem barrierPass_trace : (barrierPass s).trace = s.trace := rfl
@[simp] theorem barrierPass_inputs : (barrierPass s).inputs = s.inputs := rfl
@[simp] theorem barrierPass_busyIn : (barrierPass s).busyIn = s.busyIn := rfl
@[simp] theorem barrierPass_draws : (barrierPass s).draws = s.draws := rfl
@[simp] theorem barrierPass_issue : (barrierPass s).issue = s.issue := rfl

@[simp] theorem barrierPoll_cfg (iv : Nat) : (barrierPoll iv s).cfg = s.cfg := rfl
@[simp] theorem barrierPoll_life (iv : Nat) : (barrierPoll iv s).life = s.life := rfl
@[simp] theorem barrierPoll_fb (iv : Nat) : (barrierPoll iv s).fb = s.fb := rfl
@[simp] theorem barrierPoll_dir (iv : Nat) : (barrierPoll iv s).dir = s.dir := rfl
@[simp] theorem barrierPoll_lvl (iv : Nat) : (barrierPoll iv s).lvl = s.lvl := rfl
@[simp] theorem barrierPoll_upc (iv : Nat) : (barrierPoll iv s).upc = s.upc := rfl
@[simp] theorem barrierPoll_prog (iv : Nat) : (barrierPoll iv s).prog = s.prog := rfl
@[simp] theorem barrierPoll_elapsed (iv : Nat) : (barrierPoll iv s).elapsed = s.elapsed + iv := rfl
@[simp] theorem barrierPoll_faultHostConflict (iv : Nat) :
    (barrierPoll iv s).faultHostConflict = s.faultHostConflict := rfl
@[simp] theorem barrierPoll_trace (iv : Nat) : (barrierPoll iv s).trace = .dly iv :: s.trace := rfl
@[simp] theorem barrierPoll_inputs (iv : Nat) : (barrierPoll iv s).inputs = s.inputs := rfl
@[simp] theorem barrierPoll_busyIn (iv : Nat) : (barrierPoll iv s).busyIn = s.busyIn := rfl
@[simp] theorem barrierPoll_draws (iv : Nat) : (barrierPoll iv s).draws = s.draws := rfl
@[simp] theorem barrierPoll_issue (iv : Nat) : (barrierPoll iv s).issue = s.issue := rfl

@[simp] theorem endRefresh_cfg (st : Status) : (endRefresh st s).cfg = s.cfg := rfl
@[simp] theorem endRefresh_life (st : Status) : (endRefresh st s).life = .ready := rfl
@[simp] theorem endRefresh_fb (st : Status) : (endRefresh st s).fb = s.fb := rfl
@[simp] theorem endRefresh_dir (st : Status) : (endRefresh st s).dir = s.dir := rfl
@[simp] theorem endRefresh_lvl (st : Status) : (endRefresh st s).lvl = s.lvl := rfl
@[simp] theorem endRefresh_upc (st : Status) : (endRefresh st s).upc = 0 := rfl
@[simp] theorem endRefresh_prog (st : Status) : (endRefresh st s).prog = [] := rfl
@[simp] theorem endRefresh_elapsed (st : Status) : (endRefresh st s).elapsed = 0 := rfl
@[simp] theorem endRefresh_faultHostConflict (st : Status) :
    (endRefresh st s).faultHostConflict = s.faultHostConflict := rfl
@[simp] theorem endRefresh_trace (st : Status) : (endRefresh st s).trace = .resp opRefresh st 0 :: s.trace := rfl
@[simp] theorem endRefresh_inputs (st : Status) : (endRefresh st s).inputs = s.inputs := rfl
@[simp] theorem endRefresh_busyIn (st : Status) : (endRefresh st s).busyIn = s.busyIn := rfl
@[simp] theorem endRefresh_draws (st : Status) : (endRefresh st s).draws = s.draws := rfl
@[simp] theorem endRefresh_issue (st : Status) : (endRefresh st s).issue = s.issue := rfl

@[simp] theorem startRefresh_cfg : (startRefresh s).cfg = s.cfg := rfl
@[simp] theorem startRefresh_life : (startRefresh s).life = .refreshing := rfl
@[simp] theorem startRefresh_fb : (startRefresh s).fb = s.fb := rfl
@[simp] theorem startRefresh_dir : (startRefresh s).dir = s.dir := rfl
@[simp] theorem startRefresh_lvl : (startRefresh s).lvl = s.lvl := rfl
@[simp] theorem startRefresh_upc : (startRefresh s).upc = 0 := rfl
@[simp] theorem startRefresh_prog : (startRefresh s).prog = program s.cfg s.fb := rfl
@[simp] theorem startRefresh_elapsed : (startRefresh s).elapsed = 0 := rfl
@[simp] theorem startRefresh_faultHostConflict : (startRefresh s).faultHostConflict = s.faultHostConflict := rfl
@[simp] theorem startRefresh_trace : (startRefresh s).trace = s.trace := rfl
@[simp] theorem startRefresh_inputs : (startRefresh s).inputs = s.inputs := rfl
@[simp] theorem startRefresh_busyIn : (startRefresh s).busyIn = s.busyIn := rfl
@[simp] theorem startRefresh_draws : (startRefresh s).draws = s.draws := rfl
@[simp] theorem startRefresh_issue : (startRefresh s).issue = s.issue := rfl

@[simp] theorem sequencerIdle_cfg : (sequencerIdle s).cfg = s.cfg := rfl
@[simp] theorem sequencerIdle_life : (sequencerIdle s).life = s.life := rfl
@[simp] theorem sequencerIdle_fb : (sequencerIdle s).fb = s.fb := rfl
@[simp] theorem sequencerIdle_dir : (sequencerIdle s).dir = s.dir := rfl
@[simp] theorem sequencerIdle_lvl : (sequencerIdle s).lvl = s.lvl := rfl
@[simp] theorem sequencerIdle_upc : (sequencerIdle s).upc = 0 := rfl
@[simp] theorem sequencerIdle_prog : (sequencerIdle s).prog = [] := rfl
@[simp] theorem sequencerIdle_elapsed : (sequencerIdle s).elapsed = 0 := rfl
@[simp] theorem sequencerIdle_faultHostConflict : (sequencerIdle s).faultHostConflict = s.faultHostConflict := rfl
@[simp] theorem sequencerIdle_trace : (sequencerIdle s).trace = s.trace := rfl
@[simp] theorem sequencerIdle_inputs : (sequencerIdle s).inputs = s.inputs := rfl
@[simp] theorem sequencerIdle_busyIn : (sequencerIdle s).busyIn = s.busyIn := rfl
@[simp] theorem sequencerIdle_draws : (sequencerIdle s).draws = s.draws := rfl
@[simp] theorem sequencerIdle_issue : (sequencerIdle s).issue = s.issue := rfl

@[simp] theorem construct_cfg (w h : Half) :
    (construct w h s).cfg = { s.cfg with w := w, h := h, hb := groupsOf h } := by simp [construct, claimPins,
      outPins]
@[simp] theorem construct_life (w h : Half) :
    (construct w h s).life = .ready := by simp [construct, claimPins, outPins]
@[simp] theorem construct_fb (w h : Half) :
    (construct w h s).fb = fbDraw s.draws (fbSize { s.cfg with w := w, h := h, hb := groupsOf h }) := by simp
      [construct, claimPins, outPins]
@[simp] theorem construct_dir (w h : Half) :
    (construct w h s).dir = Dirs.claimed := by simp [construct, claimPins, outPins, setDir, Dirs.claimed]
@[simp] theorem construct_lvl (w h : Half) :
    (construct w h s).lvl = Lines.unknown := by simp [construct, claimPins, outPins]
@[simp] theorem construct_upc (w h : Half) : (construct w h s).upc = 0 := by simp [construct, claimPins, outPins]
@[simp] theorem construct_prog (w h : Half) : (construct w h s).prog = [] := by simp [construct, claimPins, outPins]
@[simp] theorem construct_elapsed (w h : Half) :
    (construct w h s).elapsed = 0 := by simp [construct, claimPins, outPins]
@[simp] theorem construct_faultHostConflict (w h : Half) :
    (construct w h s).faultHostConflict = s.faultHostConflict := by simp [construct, claimPins, outPins]
@[simp] theorem construct_trace (w h : Half) :
    (construct w h s).trace = .cfg .busy .input :: .cfg (.out .rst) .output :: .cfg (.out .dc) .output :: .cfg (.out
      .cs) .output :: .cfg (.out .clk) .output :: .cfg (.out .din) .output :: s.trace := by simp [construct,
      claimPins, outPins]
@[simp] theorem construct_inputs (w h : Half) :
    (construct w h s).inputs = s.inputs := by simp [construct, claimPins, outPins]
@[simp] theorem construct_busyIn (w h : Half) :
    (construct w h s).busyIn = s.busyIn := by simp [construct, claimPins, outPins]
@[simp] theorem construct_draws (w h : Half) :
    (construct w h s).draws = s.draws + 1 := by simp [construct, claimPins, outPins]
@[simp] theorem construct_issue (w h : Half) :
    (construct w h s).issue = s.issue := by simp [construct, claimPins, outPins]

@[simp] theorem release_cfg : (release s).cfg = s.cfg := by simp [release, releasePins, outPins]
@[simp] theorem release_life : (release s).life = .released := by simp [release, releasePins, outPins]
@[simp] theorem release_fb : (release s).fb = s.fb := by simp [release, releasePins, outPins]
@[simp] theorem release_dir :
    (release s).dir = Dirs.unclaimed := by simp [release, releasePins, outPins, setDir, Dirs.unclaimed]
@[simp] theorem release_lvl : (release s).lvl = Lines.unknown := by simp [release, releasePins, outPins]
@[simp] theorem release_upc : (release s).upc = 0 := by simp [release, releasePins, outPins]
@[simp] theorem release_prog : (release s).prog = [] := by simp [release, releasePins, outPins]
@[simp] theorem release_elapsed : (release s).elapsed = 0 := by simp [release, releasePins, outPins]
@[simp] theorem release_faultHostConflict :
    (release s).faultHostConflict = s.faultHostConflict := by simp [release, releasePins, outPins]
@[simp] theorem release_trace :
    (release s).trace = .cfg .busy .unconfigured :: .cfg (.out .rst) .unconfigured :: .cfg (.out .dc) .unconfigured
      :: .cfg (.out .cs) .unconfigured :: .cfg (.out .clk) .unconfigured :: .cfg (.out .din) .unconfigured :: s.trace
      := by simp [release, releasePins, outPins]
@[simp] theorem release_inputs : (release s).inputs = s.inputs := by simp [release, releasePins, outPins]
@[simp] theorem release_busyIn : (release s).busyIn = s.busyIn := by simp [release, releasePins, outPins]
@[simp] theorem release_draws : (release s).draws = s.draws := by simp [release, releasePins, outPins]
@[simp] theorem release_issue : (release s).issue = s.issue := by simp [release, releasePins, outPins]

@[simp] theorem powerOn_cfg : (powerOn s).cfg = { s.cfg with w := 0, h := 0, hb := 0 } := rfl
@[simp] theorem powerOn_life : (powerOn s).life = .unbound := rfl
@[simp] theorem powerOn_fb : (powerOn s).fb = [] := rfl
@[simp] theorem powerOn_dir : (powerOn s).dir = Dirs.unclaimed := rfl
@[simp] theorem powerOn_lvl : (powerOn s).lvl = Lines.unknown := rfl
@[simp] theorem powerOn_upc : (powerOn s).upc = 0 := rfl
@[simp] theorem powerOn_prog : (powerOn s).prog = [] := rfl
@[simp] theorem powerOn_elapsed : (powerOn s).elapsed = 0 := rfl
@[simp] theorem powerOn_faultHostConflict : (powerOn s).faultHostConflict = false := rfl
@[simp] theorem powerOn_trace : (powerOn s).trace = [] := rfl
@[simp] theorem powerOn_inputs : (powerOn s).inputs = s.inputs := rfl
@[simp] theorem powerOn_busyIn : (powerOn s).busyIn = s.busyIn := rfl
@[simp] theorem powerOn_draws : (powerOn s).draws = s.draws := rfl
@[simp] theorem powerOn_issue : (powerOn s).issue = none := rfl

end Sys2Proof.Machine
end

