-- ==== Sys2Proof/Laws/Encoding.lean ====
section
/-! SUPPORT. The fields of an encoded host word, and what the decoder answers. -/

namespace Sys2Proof

theorem hostWord_getLsbD (op : OpCode) (x y : Half) (d : Bool) (i : Nat) :
    (hostWord op x y d).getLsbD i =
      if i < 4 then op.getLsbD i
      else if i < 5 then d
      else if i < 8 then false
      else if i < 24 then x.getLsbD (i - 8)
      else y.getLsbD (i - 24) := by
  have e1 (h : ¬i < 4) : (i - 4 < 1) = (i < 5) := by simp only [eq_iff_iff]; omega
  have e2 (h : ¬i < 5) : (i - 4 - 1 < 3) = (i < 8) := by simp only [eq_iff_iff]; omega
  have e4 : i - 4 - 1 - 3 = i - 8 := by omega
  have e5 : i - 8 - 16 = i - 24 := by omega
  unfold hostWord
  simp only [BitVec.getLsbD_append, BitVec.getLsbD_ofBool]
  by_cases h4 : i < 4
  · simp [h4]
  · by_cases h5 : i < 5
    · have : i = 4 := by omega
      subst this
      simp
    · by_cases h8 : i < 8
      · simp [h4, h5, h8, e1, e2]
      · by_cases h24 : i < 24
        · simp [h4, h5, h8, h24, e1, e2, e4]
          omega
        · simp [h4, h5, h8, h24, e1, e2, e4, e5]
          omega

@[simp] theorem hostWord_op (op : OpCode) (x y : Half) (d : Bool) : HostWord.op (hostWord op x y d) = op := by
  apply BitVec.eq_of_getLsbD_eq
  intro i hi
  simp [HostWord.op, hostWord_getLsbD, hi]

@[simp] theorem hostWord_rsv (op : OpCode) (x y : Half) (d : Bool) : HostWord.rsv (hostWord op x y d) = 0 := by
  apply BitVec.eq_of_getLsbD_eq
  intro i hi
  simp only [HostWord.rsv, BitVec.getLsbD_extractLsb', hostWord_getLsbD]
  rw [if_neg (by omega), if_neg (by omega), if_pos (by omega)]
  simp

@[simp] theorem hostWord_dark (op : OpCode) (x y : Half) (d : Bool) : HostWord.dark (hostWord op x y d) = d := by
  rw [HostWord.dark, hostWord_getLsbD]
  simp

@[simp] theorem hostWord_x (op : OpCode) (x y : Half) (d : Bool) : HostWord.x (hostWord op x y d) = x := by
  apply BitVec.eq_of_getLsbD_eq
  intro i hi
  simp only [HostWord.x, BitVec.getLsbD_extractLsb', hostWord_getLsbD]
  rw [if_neg (by omega), if_neg (by omega), if_neg (by omega), if_pos (by omega)]
  simp [hi]

@[simp] theorem hostWord_y (op : OpCode) (x y : Half) (d : Bool) : HostWord.y (hostWord op x y d) = y := by
  apply BitVec.eq_of_getLsbD_eq
  intro i hi
  simp only [HostWord.y, BitVec.getLsbD_extractLsb', hostWord_getLsbD]
  rw [if_neg (by omega), if_neg (by omega), if_neg (by omega), if_neg (by omega)]
  simp [hi]

/-- A word is one of the eight operations with RSV 000, or reserved (R303, R304). -/
theorem op_cases (w : HostWord) :
    HostWord.op w = 0 ∨ HostWord.op w = opInit ∨ HostWord.op w = opClear ∨ HostWord.op w = opSetpx ∨
    HostWord.op w = opGetpx ∨ HostWord.op w = opWidth ∨ HostWord.op w = opHeight ∨ HostWord.op w = opRefresh ∨
    HostWord.op w = opTeardown ∨ 9 ≤ (HostWord.op w).toNat := by
  generalize HostWord.op w = o
  revert o
  decide

theorem decodeHost_reserved {w : HostWord} (h : HostWord.op w = 0 ∨ 9 ≤ (HostWord.op w).toNat ∨ HostWord.rsv w ≠ 0) :
    decodeHost w = .reservedHostWord w := by
  unfold decodeHost
  split
  · rfl
  · rename_i hr
    have ho : HostWord.op w = 0 ∨ 9 ≤ (HostWord.op w).toNat := by
      rcases h with h | h | h
      · exact .inl h
      · exact .inr h
      · exact absurd h hr
    clear h
    generalize HostWord.op w = o at ho ⊢
    have hne : o ≠ opInit ∧ o ≠ opClear ∧ o ≠ opSetpx ∧ o ≠ opGetpx ∧ o ≠ opWidth ∧ o ≠ opHeight ∧ o ≠ opRefresh ∧
        o ≠ opTeardown := by revert o; decide
    simp [hne]

/-- Every host word decodes to a host instruction. -/
theorem decodeHost_isHost (w : HostWord) : (decodeHost w).isHost = true := by
  unfold decodeHost
  repeat' split
  all_goals rfl

/-- A decoded host word keeps its OP field. -/
theorem opOf_decodeHost (w : HostWord) : opOf (decodeHost w) = some (HostWord.op w) := by
  unfold decodeHost
  repeat' split
  all_goals simp_all [opOf]

/-- The operations that are defined have OP 0x1 to 0x8 (R303). -/
theorem opOf_defined {i : Instr} {op : OpCode} (ho : opOf i = some op) (hn : ∀ w, i ≠ .reservedHostWord w) :
    1 ≤ op.toNat ∧ op.toNat ≤ 8 := by
  cases i
  case reservedHostWord w => exact absurd rfl (hn w)
  all_goals cases ho
  all_goals decide

theorem decodeOpcode_isHost (op : Byte) : (decodeOpcode op).all (fun i => !i.isHost) = true := by
  revert op
  decide

/-- A wire frame decodes to a wire command. -/
theorem decodeWire_isHost {bytes : List Byte} {i : Instr} (h : decodeWire bytes = .ok i) : i.isHost = false := by
  cases bytes with
  | nil => cases h
  | cons op payload =>
    have hop := decodeOpcode_isHost op
    simp only [decodeWire] at h
    cases hj : decodeOpcode op with
    | none => rw [hj] at h; cases h
    | some j =>
      rw [hj] at h hop
      dsimp only at h
      split at h
      · cases h; simpa using hop
      · split at h <;> cases h
        rfl

end Sys2Proof
end

