-- ==== Sys2Proof/Laws/Memory.lean ====
section
/-! SUPPORT. The framebuffer: read after write, the canonical form, and that equal memories are equal data. -/

namespace Sys2Proof.Machine

/-! ### Read after write -/

theorem fbRead_erase (m : Memory) (a b : Nat) : fbRead (fbErase m a) b = if b = a then 0 else fbRead m b := by
  induction m with
  | nil => simp [fbErase, fbRead]
  | cons c rest ih =>
    obtain ⟨k, v⟩ := c
    unfold fbErase at ih ⊢
    rw [List.filter_cons]
    by_cases hk : k = a
    · subst hk
      by_cases hb : b = k
      · subst hb; simpa using ih
      · simpa [hb, fbRead, Ne.symm hb] using ih
    · simp only [bne_iff_ne, ne_eq, hk, not_false_eq_true, ↓reduceIte, fbRead, ih]
      by_cases hb : k = b
      · subst hb; simp [hk]
      · simp [hb]

theorem fbRead_insert (m : Memory) (a b : Nat) (v : Byte) :
    fbRead (fbInsert m a v) b = if b = a then v else fbRead m b := by
  induction m with
  | nil =>
    by_cases h : b = a
    · simp [fbInsert, fbRead, h]
    · simp [fbInsert, fbRead, h, Ne.symm h]
  | cons c rest ih =>
    obtain ⟨k, u⟩ := c
    simp only [fbInsert]
    split
    · by_cases h : b = a
      · simp [fbRead, h]
      · simp [fbRead, h, Ne.symm h]
    · split
      · rename_i h; subst h
        by_cases h : b = a
        · simp [fbRead, h]
        · simp [fbRead, h, Ne.symm h]
      · rename_i hne
        simp only [fbRead, ih]
        by_cases hk : k = b
        · subst hk; simp [Ne.symm hne]
        · simp [hk]

/-- A read after a write: the byte written, and every other byte as before. -/
theorem fbRead_write (m : Memory) (a b : Nat) (v : Byte) :
    fbRead (fbWrite m a v) b = if b = a then v else fbRead m b := by
  unfold fbWrite
  split
  · rename_i h; subst h; exact fbRead_erase m a b
  · exact fbRead_insert m a b v

/-- Writing the same byte twice is writing it once. -/
theorem fbWrite_idem (m : Memory) (a : Nat) (v : Byte) : fbWrite (fbWrite m a v) a v = fbWrite m a v := by
  unfold fbWrite
  split
  · simp [fbErase, List.filter_filter]
  · induction m with
    | nil => simp [fbInsert]
    | cons c rest ih =>
      obtain ⟨k, u⟩ := c
      simp only [fbInsert]
      split
      · simp [fbInsert]
      · split
        · simp [fbInsert]
        · rename_i h1 h2; simp [fbInsert, h1, h2, ih]

/-! ### The canonical form -/

theorem wfFrom_mono {lo lo' : Nat} (h : lo ≤ lo') : ∀ {m : Memory}, wfFrom lo' m = true → wfFrom lo m = true
  | [], _ => rfl
  | (a, v) :: rest, hw => by
    simp only [wfFrom, Bool.and_eq_true, decide_eq_true_eq] at hw ⊢
    exact ⟨⟨by omega, hw.1.2⟩, hw.2⟩

theorem wfFrom_erase (a : Nat) : ∀ {lo : Nat} {m : Memory}, wfFrom lo m = true → wfFrom lo (fbErase m a) = true
  | _, [], _ => rfl
  | lo, (b, v) :: rest, hw => by
    simp only [wfFrom, Bool.and_eq_true, decide_eq_true_eq] at hw
    have ih := wfFrom_erase a hw.2
    unfold fbErase at ih ⊢
    rw [List.filter_cons]
    split
    · simp only [wfFrom, Bool.and_eq_true, decide_eq_true_eq]
      exact ⟨hw.1, ih⟩
    · exact wfFrom_mono (by omega) ih

theorem wfFrom_insert {a : Nat} {v : Byte} (hv : v ≠ 0) :
    ∀ {lo : Nat} {m : Memory}, lo ≤ a → wfFrom lo m = true → wfFrom lo (fbInsert m a v) = true
  | _, [], hl, _ => by simpa [fbInsert, wfFrom, hl] using hv
  | lo, (b, u) :: rest, hl, hw => by
    simp only [wfFrom, Bool.and_eq_true, decide_eq_true_eq, bne_iff_ne] at hw
    simp only [fbInsert]
    split
    · simp only [wfFrom, Bool.and_eq_true, decide_eq_true_eq, bne_iff_ne]
      exact ⟨⟨hl, hv⟩, ⟨by omega, hw.1.2⟩, hw.2⟩
    · split
      · rename_i h; subst h
        simp only [wfFrom, Bool.and_eq_true, decide_eq_true_eq, bne_iff_ne]
        exact ⟨⟨hl, hv⟩, hw.2⟩
      · simp only [wfFrom, Bool.and_eq_true, decide_eq_true_eq, bne_iff_ne]
        exact ⟨hw.1, wfFrom_insert hv (by omega) hw.2⟩

/-- A write keeps the canonical form. -/
theorem wf_write {m : Memory} (a : Nat) (v : Byte) (h : Memory.wf m = true) : Memory.wf (fbWrite m a v) = true := by
  unfold fbWrite
  split
  · exact wfFrom_erase a h
  · rename_i hv; exact wfFrom_insert hv (Nat.zero_le a) h

theorem wf_nil : Memory.wf [] = true := rfl

theorem reset_fb_wf : Memory.wf State.reset.fb = true := rfl

theorem wfFrom_ge : ∀ {m : Memory} {lo : Nat}, wfFrom lo m = true → ∀ c ∈ m, lo ≤ c.1
  | [], _, _, _, hc => by cases hc
  | (a, v) :: rest, lo, h, c, hc => by
    simp only [wfFrom, Bool.and_eq_true, decide_eq_true_eq] at h
    cases hc with
    | head => exact h.1.1
    | tail _ hc => have := wfFrom_ge h.2 c hc; omega

theorem fbRead_of_absent : ∀ {m : Memory} {a : Nat}, (∀ c ∈ m, c.1 ≠ a) → fbRead m a = 0
  | [], _, _ => rfl
  | (b, v) :: rest, a, h => by
    simp only [fbRead]
    rw [if_neg (h (b, v) (by simp))]
    exact fbRead_of_absent fun c hc => h c (by simp [hc])

theorem fbRead_below {m : Memory} {lo a : Nat} (h : wfFrom lo m = true) (ha : a < lo) : fbRead m a = 0 :=
  fbRead_of_absent fun c hc => by have := wfFrom_ge h c hc; omega

/-- Memories in canonical form that read alike are the same data. -/
theorem memory_ext : ∀ {m m' : Memory} {lo : Nat}, wfFrom lo m = true → wfFrom lo m' = true →
    (∀ a, fbRead m a = fbRead m' a) → m = m'
  | [], [], _, _, _, _ => rfl
  | [], (b, v) :: rest, lo, _, h', he => by
    simp only [wfFrom, Bool.and_eq_true, decide_eq_true_eq, bne_iff_ne] at h'
    have := he b
    simp [fbRead] at this
    exact absurd this.symm h'.1.2
  | (b, v) :: rest, [], lo, h, _, he => by
    simp only [wfFrom, Bool.and_eq_true, decide_eq_true_eq, bne_iff_ne] at h
    have := he b
    simp [fbRead] at this
    exact absurd this h.1.2
  | (b, v) :: rest, (b', v') :: rest', lo, h, h', he => by
    simp only [wfFrom, Bool.and_eq_true, decide_eq_true_eq, bne_iff_ne] at h h'
    have hb : b = b' := by
      rcases Nat.lt_trichotomy b b' with hlt | heq | hlt
      · have := he b
        rw [fbRead, if_pos rfl, fbRead, if_neg (by omega), fbRead_below h'.2 (by omega)] at this
        exact absurd this h.1.2
      · exact heq
      · have := he b'
        rw [fbRead, if_neg (by omega), fbRead_below h.2 (by omega), fbRead, if_pos rfl] at this
        exact absurd this.symm h'.1.2
    subst hb
    have hv : v = v' := by simpa [fbRead] using he b
    subst hv
    have hrest : rest = rest' := memory_ext h.2 h'.2 fun a => by
      by_cases hab : a = b
      · subst hab; rw [fbRead_below h.2 (by omega), fbRead_below h'.2 (by omega)]
      · simpa [fbRead, Ne.symm hab] using he a
    rw [hrest]

/-! ### Bounds -/

theorem mem_fbErase {m : Memory} {a : Nat} {c : Host.Cell} (h : c ∈ fbErase m a) : c ∈ m :=
  (List.mem_filter.mp h).1

theorem mem_fbInsert : ∀ {m : Memory} {a : Nat} {v : Byte} {c : Host.Cell}, c ∈ fbInsert m a v → c ∈ m ∨ c = (a, v)
  | [], _, _, _, h => by simpa [fbInsert] using h
  | (b, u) :: rest, a, v, c, h => by
    simp only [fbInsert] at h
    split at h
    · rcases List.mem_cons.mp h with h | h
      · exact .inr h
      · exact .inl h
    · split at h
      · rcases List.mem_cons.mp h with h | h
        · exact .inr h
        · exact .inl (by simp [h])
      · rcases List.mem_cons.mp h with h | h
        · exact .inl (by simp [h])
        · rcases mem_fbInsert h with h | h
          · exact .inl (by simp [h])
          · exact .inr h

/-- A write inside FB keeps every listed address inside FB. -/
theorem bounded_write {m : Memory} {n a : Nat} (v : Byte) (h : ∀ c ∈ m, c.1 < n) (ha : a < n) :
    ∀ c ∈ fbWrite m a v, c.1 < n := by
  intro c hc
  unfold fbWrite at hc
  split at hc
  · exact h c (mem_fbErase hc)
  · rcases mem_fbInsert hc with hc | hc
    · exact h c hc
    · subst hc; exact ha

/-! ### The draw at INIT -/

theorem range'_filter_wf (f : Nat → Byte) : ∀ (n lo : Nat),
    wfFrom lo (((List.range' lo n).map fun a => (a, f a)).filter fun c => c.2 != 0) = true
  | 0, _ => rfl
  | n + 1, lo => by
    rw [List.range'_succ, List.map_cons, List.filter_cons]
    split
    · rename_i h
      simp only [wfFrom, Bool.and_eq_true, decide_eq_true_eq]
      exact ⟨⟨Nat.le_refl _, h⟩, range'_filter_wf f n (lo + 1)⟩
    · exact wfFrom_mono (Nat.le_succ lo) (range'_filter_wf f n (lo + 1))

theorem range'_filter_read (f : Nat → Byte) : ∀ (n lo a : Nat), lo ≤ a → a < lo + n →
    fbRead (((List.range' lo n).map fun a => (a, f a)).filter fun c => c.2 != 0) a = f a
  | 0, _, _, h, h' => by omega
  | n + 1, lo, a, h, h' => by
    rw [List.range'_succ, List.map_cons, List.filter_cons]
    by_cases hla : a = lo
    · subst hla
      split
      · simp [fbRead]
      · rename_i hz
        have hz : f a = 0 := by simpa using hz
        rw [hz]
        exact fbRead_below (range'_filter_wf f n (a + 1)) (by omega)
    · have ih := range'_filter_read f n (lo + 1) a (by omega) (by omega)
      split
      · simp only [fbRead, Ne.symm hla, if_false]
        exact ih
      · exact ih

/-- INIT's memory reads as the draw, byte by byte. -/
theorem fbRead_draw {draw n a : Nat} (h : a < n) : fbRead (fbDraw draw n) a = Config.fbInit draw a := by
  unfold fbDraw
  rw [List.range_eq_range']
  exact range'_filter_read _ n 0 a (Nat.zero_le a) (by omega)

theorem wf_draw (draw n : Nat) : Memory.wf (fbDraw draw n) = true := by
  unfold fbDraw Memory.wf
  rw [List.range_eq_range']
  exact range'_filter_wf _ n 0

theorem bounded_draw (draw n : Nat) : ∀ c ∈ fbDraw draw n, c.1 < n := by
  intro c hc
  unfold fbDraw at hc
  obtain ⟨hc, -⟩ := List.mem_filter.mp hc
  obtain ⟨a, ha, rfl⟩ := List.mem_map.mp hc
  exact List.mem_range.mp ha

end Sys2Proof.Machine
end

