-- ==== Sys2Proof/Laws/PerInstr.lean ====
section
/-! SUPPORT. One statement per instruction, about its encoding: every row of spec/opcode_table.json is spelled in its own
format, with its own code. -/

namespace Sys2Proof.Laws.TableRow

/-- A host instruction is one host word with its OP (30_encoding.md R301, R303) and, unless it is reserved, RSV 000
(R304); a wire instruction is its opcode byte and then its payload (R306, R308). -/
def Statement (i : Instr) : Prop :=
  match encode i with
  | .host w => i.isHost = true ∧ opOf i = some (HostWord.op w) ∧ (HostWord.rsv w = 0 ∨ i = .reservedHostWord w)
  | .wire bytes => i.isHost = false ∧ ∃ op payload, wireBytes i = some (op, payload) ∧ bytes = op :: payload

theorem init (w h : Half) : Statement (.init w h) := by simp [Statement, encode, Instr.isHost, opOf]
theorem clear : Statement .clear := by simp [Statement, encode, Instr.isHost, opOf]
theorem setpx (x y : Half) (dark : Bool) : Statement (.setpx x y dark) := by simp [Statement, encode, Instr.isHost, opOf]
theorem getpx (x y : Half) : Statement (.getpx x y) := by simp [Statement, encode, Instr.isHost, opOf]
theorem width : Statement .width := by simp [Statement, encode, Instr.isHost, opOf]
theorem height : Statement .height := by simp [Statement, encode, Instr.isHost, opOf]
theorem refresh : Statement .refresh := by simp [Statement, encode, Instr.isHost, opOf]
theorem teardown : Statement .teardown := by simp [Statement, encode, Instr.isHost, opOf]
theorem reservedHostWord (w : HostWord) : Statement (.reservedHostWord w) := ⟨rfl, rfl, .inr rfl⟩
theorem drvOutCtrl : Statement .drvOutCtrl := ⟨rfl, _, _, rfl, rfl⟩
theorem deepSleep : Statement .deepSleep := ⟨rfl, _, _, rfl, rfl⟩
theorem dataEntry : Statement .dataEntry := ⟨rfl, _, _, rfl, rfl⟩
theorem swReset : Statement .swReset := ⟨rfl, _, _, rfl, rfl⟩
theorem masterAct : Statement .masterAct := ⟨rfl, _, _, rfl, rfl⟩
theorem updSeq (mode : UpdMode) : Statement (.updSeq mode) := ⟨rfl, _, _, rfl, rfl⟩
theorem writeRamPri : Statement .writeRamPri := ⟨rfl, _, _, rfl, rfl⟩
theorem writeRamSec : Statement .writeRamSec := ⟨rfl, _, _, rfl, rfl⟩
theorem ramXWin : Statement .ramXWin := ⟨rfl, _, _, rfl, rfl⟩
theorem ramYWin : Statement .ramYWin := ⟨rfl, _, _, rfl, rfl⟩
theorem ramXPtr : Statement .ramXPtr := ⟨rfl, _, _, rfl, rfl⟩
theorem ramYPtr : Statement .ramYPtr := ⟨rfl, _, _, rfl, rfl⟩

end Sys2Proof.Laws.TableRow
end

