-- ==== Sys2Proof/Laws/Pixels.lean ====
section
/-! SUPPORT. Pixel addresses and bits (40_pixelbuffer.md R402, R405; 20_memory.md R202). -/

namespace Sys2Proof.Machine

theorem inRange_iff (c : Cfg) (x y : Half) :
    inRange c x y = true ↔ x.toNat < c.w.toNat ∧ y.toNat < c.h.toNat := by
  simp [inRange]

theorem groupsOf_toNat (h : Half) : (groupsOf h).toNat = h.toNat / 8 := by
  have := h.isLt
  simp only [groupsOf, BitVec.toNat_ofNat]
  omega

/-- What INIT's checks say (44_host_interface.md R603). -/
theorem geometryOk_iff (cap : Nat) (w h : Half) :
    geometryOk cap w h = true ↔ w ≠ 0 ∧ h ≠ 0 ∧ h.toNat % 8 = 0 ∧
      Config.target.offsetY + h.toNat / 8 ≤ Config.target.virtualY ∧ w.toNat * (h.toNat / 8) ≤ cap := by
  simp [geometryOk, and_assoc]

/-- With an accepted geometry the height is eight times the groups. -/
theorem GeometryFits.h_eq {c : Cfg} (g : GeometryFits c) : c.h.toNat = 8 * c.hb.toNat := by
  have h1 := ((geometryOk_iff _ _ _).mp g.1).2.2.1
  rw [g.2, groupsOf_toNat]
  omega

/-- An in-range pixel lies in FB (R402). -/
theorem addr_lt {c : Cfg} {x y : Half} (g : GeometryFits c) (hr : inRange c x y = true) :
    addr c x y < fbSize c := by
  obtain ⟨hx, hy⟩ := (inRange_iff c x y).mp hr
  have h8 := g.h_eq
  have hmul : (x.toNat + 1) * c.hb.toNat ≤ c.w.toNat * c.hb.toNat := Nat.mul_le_mul_right _ hx
  rw [Nat.succ_mul] at hmul
  unfold addr fbSize
  omega

/-- Two in-range pixels share a byte and a bit only if they are the same pixel. -/
theorem pixel_injective {c : Cfg} {x y x' y' : Half} (g : GeometryFits c) (hr : inRange c x y = true)
    (hr' : inRange c x' y' = true) (ha : addr c x' y' = addr c x y) (hb : bitk y' = bitk y) : x' = x ∧ y' = y := by
  obtain ⟨-, hy⟩ := (inRange_iff c x y).mp hr
  obtain ⟨-, hy'⟩ := (inRange_iff c x' y').mp hr'
  have h8 := g.h_eq
  unfold addr at ha
  unfold bitk at hb
  have hg : y.toNat / 8 < c.hb.toNat := by omega
  have hg' : y'.toNat / 8 < c.hb.toNat := by omega
  have hx : x'.toNat = x.toNat := by
    have e1 := Nat.add_mul_div_right (y.toNat / 8) x.toNat (Nat.zero_lt_of_lt hg)
    have e2 := Nat.add_mul_div_right (y'.toNat / 8) x'.toNat (Nat.zero_lt_of_lt hg)
    rw [Nat.div_eq_of_lt hg, Nat.zero_add] at e1
    rw [Nat.div_eq_of_lt hg', Nat.zero_add] at e2
    rw [← e1, ← e2]
    congr 1
    omega
  have hy2 : y'.toNat = y.toNat := by
    rw [hx] at ha
    omega
  exact ⟨BitVec.eq_of_toNat_eq hx, BitVec.eq_of_toNat_eq hy2⟩

theorem bitk_lt (y : Half) : bitk y < 8 := Nat.mod_lt _ (by decide)

/-- SETPX changes exactly one bit of its byte (R405). -/
theorem withPixel_getLsbD (b : Byte) (k j : Nat) (d : Bool) (hk : k < 8) (hj : j < 8) :
    (withPixel b k d).getLsbD j = if j = k then d else b.getLsbD j := by
  unfold withPixel
  split
  · rename_i hd
    subst hd
    simp only [BitVec.getLsbD_or, BitVec.getLsbD_shiftLeft, hj]
    by_cases h : j = k
    · subst h; simp
    · rw [if_neg h]
      have : (1#8).getLsbD (j - k) = false ∨ j < k := by
        by_cases hlt : j < k
        · exact .inr hlt
        · left
          have : j - k ≠ 0 := by omega
          simp [BitVec.getLsbD_one, this]
      rcases this with h1 | h1 <;> simp [h1]
  · rename_i hd
    have hd : d = false := by simpa using hd
    subst hd
    simp only [BitVec.getLsbD_and, BitVec.getLsbD_not, BitVec.getLsbD_shiftLeft, hj]
    by_cases h : j = k
    · subst h; simp
    · rw [if_neg h]
      have : (1#8).getLsbD (j - k) = false ∨ j < k := by
        by_cases hlt : j < k
        · exact .inr hlt
        · left
          have : j - k ≠ 0 := by omega
          simp [BitVec.getLsbD_one, this]
      rcases this with h1 | h1 <;> simp [h1]

/-- Setting a pixel twice is setting it once. -/
theorem withPixel_idem (b : Byte) (k : Nat) (d : Bool) : withPixel (withPixel b k d) k d = withPixel b k d := by
  unfold withPixel
  cases d
  · simp [BitVec.and_assoc]
  · simp [BitVec.or_assoc]

end Sys2Proof.Machine
end

