-- ==== Sys2Proof/Laws/Serial.lean ====
section
/-! SUPPORT. The shapes of the serializer's micro-op lists and of the program: lengths, pin writes only, brackets, and the
levels they leave. -/

namespace Sys2Proof.Machine

/-! ### Lists without a barrier -/

@[simp] theorem isWrite_w (p : OutPin) (l : Level) : (MicroOp.w p l).isWrite = true := rfl
@[simp] theorem isWrite_d (ms : Nat) : (MicroOp.d ms).isWrite = false := rfl
@[simp] theorem isWrite_b (iv : Nat) : (MicroOp.b iv).isWrite = false := rfl
@[simp] theorem straight_w (p : OutPin) (l : Level) : (MicroOp.w p l).straight = true := rfl
@[simp] theorem straight_d (ms : Nat) : (MicroOp.d ms).straight = true := rfl
@[simp] theorem straight_b (iv : Nat) : (MicroOp.b iv).straight = false := rfl

theorem isWrite_iff (m : MicroOp) : m.isWrite = true ↔ ∃ p l, m = .w p l := by
  cases m <;> simp [MicroOp.isWrite]

theorem straight_of_isWrite {ms : List MicroOp} (h : ms.all MicroOp.isWrite = true) :
    ms.all MicroOp.straight = true := by
  simp only [List.all_eq_true] at h ⊢
  intro m hm
  have := h m hm
  cases m <;> simp_all [MicroOp.isWrite, MicroOp.straight]

/-- The levels a list of micro-ops leaves. -/
def linesAfter (l : Lines) : List MicroOp → Lines
  | [] => l
  | .w p v :: rest => linesAfter (setLine l p (some v)) rest
  | .d _ :: rest => linesAfter l rest
  | .b _ :: rest => linesAfter l rest

@[simp] theorem linesAfter_nil (l : Lines) : linesAfter l [] = l := rfl
@[simp] theorem linesAfter_w (l : Lines) (p : OutPin) (v : Level) (rest : List MicroOp) :
    linesAfter l (.w p v :: rest) = linesAfter (setLine l p (some v)) rest := rfl
@[simp] theorem linesAfter_d (l : Lines) (ms : Nat) (rest : List MicroOp) :
    linesAfter l (.d ms :: rest) = linesAfter l rest := rfl
@[simp] theorem linesAfter_b (l : Lines) (iv : Nat) (rest : List MicroOp) :
    linesAfter l (.b iv :: rest) = linesAfter l rest := rfl

@[simp] theorem linesAfter_append (l : Lines) (a b : List MicroOp) :
    linesAfter l (a ++ b) = linesAfter (linesAfter l a) b := by
  induction a generalizing l with
  | nil => rfl
  | cons m rest ih => cases m <;> simp [ih]

/-! ### Bytes -/

/-- The levels of a byte in wire order, MSB first. -/
def levelsMsb (b : Byte) : List Level := [7, 6, 5, 4, 3, 2, 1, 0].map fun k => lvlOf (b.getLsbD k)

/-- The levels of a frame byte in wire order, LSB first, inverted. -/
def levelsInv (b : Byte) : List Level := [0, 1, 2, 3, 4, 5, 6, 7].map fun k => lvlOf (!b.getLsbD k)

theorem msbFirst_eq (b : Byte) : msbFirst b = (levelsMsb b).flatMap bitCell := by
  simp [msbFirst, levelsMsb]

theorem lsbInverted_eq (b : Byte) : lsbInverted b = (levelsInv b).flatMap bitCell := by
  simp [lsbInverted, levelsInv]

@[simp] theorem msbFirst_length (b : Byte) : (msbFirst b).length = 24 := rfl
@[simp] theorem lsbInverted_length (b : Byte) : (lsbInverted b).length = 24 := rfl

theorem msbFirst_writes (b : Byte) : (msbFirst b).all MicroOp.isWrite = true := rfl
theorem lsbInverted_writes (b : Byte) : (lsbInverted b).all MicroOp.isWrite = true := rfl

/-- What is inside a byte's micro-ops: writes of DIN and CLK. -/
theorem mem_cells {vs : List Level} {m : MicroOp} (h : m ∈ vs.flatMap bitCell) :
    ∃ l, m = .w .din l ∨ m = .w .clk l := by
  obtain ⟨v, -, hm⟩ := List.mem_flatMap.mp h
  simp only [bitCell, List.mem_cons, List.not_mem_nil, or_false] at hm
  rcases hm with rfl | rfl | rfl
  · exact ⟨v, .inl rfl⟩
  · exact ⟨.low, .inr rfl⟩
  · exact ⟨.high, .inr rfl⟩

/-! ### Frames: `send` and `streamFrame` share one shape -/

/-- A frame over any byte shifter. -/
def frameWith (shift : Byte → List MicroOp) (op : Byte) (d : List Byte) : List MicroOp :=
  frameHead op ++ d.flatMap (fun b => .w .dc .high :: shift b) ++ [.w .cs .high]

theorem send_eq (op : Byte) (d : List Byte) : send op d = frameWith msbFirst op d := rfl
theorem streamFrame_eq (op : Byte) (d : List Byte) : streamFrame op d = frameWith lsbInverted op d := rfl

theorem flatMap_length_const {shift : Byte → List MicroOp} (h : ∀ b, (shift b).length = 24) (d : List Byte) :
    (d.flatMap fun b => .w .dc .high :: shift b).length = 25 * d.length := by
  induction d with
  | nil => rfl
  | cons b rest ih => simp [h, ih]; omega

@[simp] theorem send_length (op : Byte) (d : List Byte) : (send op d).length = 27 + 25 * d.length := by
  simp [send, frameHead, flatMap_length_const msbFirst_length]; omega

@[simp] theorem streamFrame_length (op : Byte) (d : List Byte) :
    (streamFrame op d).length = 27 + 25 * d.length := by
  simp [streamFrame, frameHead, flatMap_length_const lsbInverted_length]; omega

theorem frameWith_writes {shift : Byte → List MicroOp} (h : ∀ b, (shift b).all MicroOp.isWrite = true)
    (op : Byte) (d : List Byte) : (frameWith shift op d).all MicroOp.isWrite = true := by
  have hd : (d.flatMap fun b => .w .dc .high :: shift b).all MicroOp.isWrite = true := by
    simp only [List.all_flatMap, List.all_eq_true]
    intro b _ m hm
    rcases List.mem_cons.mp hm with rfl | hm
    · rfl
    · exact List.all_eq_true.mp (h b) m hm
  simp [frameWith, frameHead, hd, msbFirst_writes, MicroOp.isWrite]

theorem send_writes (op : Byte) (d : List Byte) : (send op d).all MicroOp.isWrite = true :=
  frameWith_writes msbFirst_writes op d

theorem streamFrame_writes (op : Byte) (d : List Byte) : (streamFrame op d).all MicroOp.isWrite = true :=
  frameWith_writes lsbInverted_writes op d

/-- The frame of a wire command is a `send` frame or a `streamFrame` frame. -/
theorem frameOf_cases (i : Instr) (c : Cfg) (m : Memory) (h : i.isHost = false) :
    (∃ op d, frameOf i c m = send op d ∧ d.length ≤ 4) ∨ ∃ op, frameOf i c m = streamFrame op (streamRows c m) := by
  cases i
  case writeRamPri => exact .inr ⟨0x24, rfl⟩
  case writeRamSec => exact .inr ⟨0x26, rfl⟩
  case updSeq mode => exact .inl ⟨0x22, [updModeByte mode], rfl, by simp⟩
  all_goals first
    | (simp [Instr.isHost] at h; done)
    | exact .inl ⟨_, _, rfl, by decide⟩

theorem frameOf_writes (i : Instr) (c : Cfg) (m : Memory) : (frameOf i c m).all MicroOp.isWrite = true := by
  cases h : i.isHost with
  | true => cases i <;> first | rfl | cases h
  | false =>
    rcases frameOf_cases i c m h with ⟨op, d, he, -⟩ | ⟨op, he⟩
    · rw [he]; exact send_writes op d
    · rw [he]; exact streamFrame_writes op _

/-! ### Levels a frame leaves -/

theorem linesAfter_cells (l : Lines) (v : Level) (vs : List Level) :
    linesAfter l ((v :: vs).flatMap bitCell) =
      { l with din := some ((v :: vs).getLastD v), clk := some .high } := by
  induction vs generalizing l v with
  | nil => rfl
  | cons w ws ih =>
    rw [List.flatMap_cons, linesAfter_append, ih]
    cases ws <;> rfl

theorem linesAfter_msbFirst (l : Lines) (b : Byte) :
    linesAfter l (msbFirst b) = { l with din := some (lvlOf (b.getLsbD 0)), clk := some .high } := by
  rw [msbFirst_eq]; exact linesAfter_cells l _ _

theorem linesAfter_lsbInverted (l : Lines) (b : Byte) :
    linesAfter l (lsbInverted b) = { l with din := some (lvlOf (!b.getLsbD 7)), clk := some .high } := by
  rw [lsbInverted_eq]; exact linesAfter_cells l _ _

theorem linesAfter_frameHead (l : Lines) (op : Byte) :
    linesAfter l (frameHead op) = ⟨some (lvlOf (op.getLsbD 0)), some .high, some .low, some .low, l.rst⟩ := by
  unfold frameHead
  rw [linesAfter_append, linesAfter_msbFirst]
  rfl

/-- The levels after the data bytes of a frame, where `last` is the last level a byte's shifter puts on DIN. -/
theorem linesAfter_data {shift : Byte → List MicroOp} {last : Byte → Level}
    (hs : ∀ l b, linesAfter l (shift b) = { l with din := some (last b), clk := some .high }) (l : Lines) (d : List Byte) :
    linesAfter l (d.flatMap fun b => .w .dc .high :: shift b) =
      match d.getLast? with
      | none => l
      | some b => { l with din := some (last b), clk := some .high, dc := some .high } := by
  induction d generalizing l with
  | nil => rfl
  | cons b rest ih =>
    rw [List.flatMap_cons, linesAfter_append, linesAfter_w, hs, ih]
    cases h : rest.getLast? with
    | none =>
      have : rest = [] := List.getLast?_eq_none_iff.mp h
      subst this; rfl
    | some b' =>
      rw [List.getLast?_cons, h]; rfl

theorem linesAfter_frameWith {shift : Byte → List MicroOp} {last : Byte → Level}
    (hs : ∀ l b, linesAfter l (shift b) = { l with din := some (last b), clk := some .high })
    (l : Lines) (op : Byte) (d : List Byte) :
    linesAfter l (frameWith shift op d) =
      match d.getLast? with
      | none => ⟨some (lvlOf (op.getLsbD 0)), some .high, some .high, some .low, l.rst⟩
      | some b => ⟨some (last b), some .high, some .high, some .high, l.rst⟩ := by
  unfold frameWith
  rw [linesAfter_append, linesAfter_append, linesAfter_frameHead, linesAfter_data hs]
  cases d.getLast? <;> rfl

theorem linesAfter_send (l : Lines) (op : Byte) (d : List Byte) :
    linesAfter l (send op d) =
      match d.getLast? with
      | none => ⟨some (lvlOf (op.getLsbD 0)), some .high, some .high, some .low, l.rst⟩
      | some b => ⟨some (lvlOf (b.getLsbD 0)), some .high, some .high, some .high, l.rst⟩ :=
  linesAfter_frameWith linesAfter_msbFirst l op d

theorem linesAfter_streamFrame (l : Lines) (op : Byte) (d : List Byte) :
    linesAfter l (streamFrame op d) =
      match d.getLast? with
      | none => ⟨some (lvlOf (op.getLsbD 0)), some .high, some .high, some .low, l.rst⟩
      | some b => ⟨some (lvlOf (!b.getLsbD 7)), some .high, some .high, some .high, l.rst⟩ :=
  linesAfter_frameWith linesAfter_lsbInverted l op d

/-! ### The program, cut at its barriers -/

/-- Up to the first barrier. -/
def part1 : List MicroOp := stepIdleSetup ++ stepPanelReset
/-- Between barriers 5b and 9. -/
def part3 : List MicroOp := stepDataEntry ++ (stepRamWindow ++ stepUpdateSetup)
/-- Between barriers 9 and 12. -/
def part4 (rows : List Byte) : List MicroOp := stepFrameTransfer rows ++ stepUpdateTrigger

theorem program_parts (c : Cfg) (m : Memory) :
    program c m = part1 ++ .b 10 :: (stepDriverOutput ++ .b 10 :: (part3 ++ .b 50 ::
      (part4 (streamRows c m) ++ .b 50 :: stepSleep))) := by
  simp [program, protocolSteps, part1, part3, part4, stepPowerOn, stepBusMode, shortBarrier, longBarrier, Config.target]

@[simp] theorem streamRows_length (c : Cfg) (m : Memory) : (streamRows c m).length = c.w.toNat * 22 := by
  simp [streamRows, List.length_flatMap, Config.target, List.map_const']

/-! ### Barriers lie between frames -/

theorem leavesOpen_append_high (a : List MicroOp) : leavesOpen (a ++ [.w .cs .high]) = false := by
  simp [leavesOpen]

theorem leavesOpen_of_last {a : List MicroOp} (h : a.getLast? = some (.w .cs .high)) : leavesOpen a = false := by
  obtain ⟨b, rfl⟩ := List.getLast?_eq_some_iff.mp h
  exact leavesOpen_append_high b

/-- Where the first barriers of a list can stand. -/
theorem barrier_position {A B : List MicroOp} {x iv n : Nat} (hA : A.all MicroOp.straight = true)
   (h : (A ++ .b x :: B)[n]? = some (.b iv)) : n = A.length ∨ ∃ k, n = A.length + (1 + k) ∧ B[k]? = some (.b iv) := by
  by_cases h1 : n < A.length
  · rw [List.getElem?_append_left h1] at h
    have := List.all_eq_true.mp hA _ (List.mem_of_getElem? h)
    cases this
  · rw [List.getElem?_append_right (by omega)] at h
    by_cases h2 : n = A.length
    · exact .inl h2
    · right
      refine ⟨n - A.length - 1, by omega, ?_⟩
      obtain ⟨k, hk⟩ : ∃ k, n - A.length = k + 1 := ⟨n - A.length - 1, by omega⟩
      rw [hk, List.getElem?_cons_succ] at h
      rw [hk]; exact h

theorem last_send (a : List MicroOp) (op d) : (a ++ send op d).getLast? = some (.w .cs .high) := by
  simp [send, ← List.append_assoc]

/-- No barrier of the program, and not its end, lies inside a frame (41_seriallink.md R458). -/
theorem program_closed (c : Cfg) (m : Memory) : leavesOpen (program c m) = false ∧
    ∀ n iv, (program c m)[n]? = some (.b iv) → leavesOpen ((program c m).take n) = false := by
  rw [program_parts]
  generalize streamRows c m = rows
  have st1 : part1.all MicroOp.straight = true := by decide
  have st2 : stepDriverOutput.all MicroOp.straight = true := by decide
  have st3 : part3.all MicroOp.straight = true := by
    simp [part3, stepDataEntry, stepRamWindow, stepUpdateSetup, straight_of_isWrite (send_writes _ _)]
  have st4 : (part4 rows).all MicroOp.straight = true := by
    simp [part4, stepFrameTransfer, stepUpdateTrigger, straight_of_isWrite (send_writes _ _), straight_of_isWrite (streamFrame_writes _ _)]
  have l1 : ∃ a, part1 = a ++ send 0x12 [] := ⟨stepIdleSetup ++ [.w .rst .low, .d 10, .w .rst .high, .d 10], by simp [part1, stepPanelReset, Config.target]⟩
  have l3 : ∃ a, part3 = a ++ send 0x20 [] := ⟨stepDataEntry ++ (stepRamWindow ++ send 0x22 [0xB1]), by simp [part3, stepUpdateSetup, Config.target]⟩
  have l4 : ∃ a, part4 rows = a ++ send 0x20 [] := ⟨stepFrameTransfer rows ++ send 0x22 [0xC7], by simp [part4, stepUpdateTrigger, Config.target]⟩
  obtain ⟨a1, l1⟩ := l1
  obtain ⟨a3, l3⟩ := l3
  obtain ⟨a4, l4⟩ := l4
  have l2 : stepDriverOutput = [] ++ send 0x01 Config.target.drvOut := rfl
  have l5 : stepSleep = [] ++ send 0x10 Config.target.deepSleepMode := rfl
  generalize part1 = A1 at *
  generalize stepDriverOutput = A2 at *
  generalize part3 = A3 at *
  generalize part4 rows = A4 at *
  have st5 : stepSleep.all MicroOp.straight = true := by decide
  generalize stepSleep = A5 at *
  constructor
  · apply leavesOpen_of_last
    have : (A1 ++ .b 10 :: (A2 ++ .b 10 :: (A3 ++ .b 50 :: (A4 ++ .b 50 :: A5)))) = (A1 ++ .b 10 :: (A2 ++ .b 10 :: (A3 ++ .b 50 :: (A4 ++ [.b 50])))) ++ send 0x10 Config.target.deepSleepMode := by simp [l5]
    rw [this]; exact last_send _ _ _
  · intro n iv h
    apply leavesOpen_of_last
    rcases barrier_position st1 h with rfl | ⟨k, rfl, g1⟩
    · rw [List.take_left, l1]; exact last_send _ _ _
    rw [List.take_length_add_append, Nat.add_comm 1 k, List.take_succ_cons]
    rcases barrier_position st2 g1 with rfl | ⟨k, rfl, g2⟩
    · rw [List.take_left]
      have : A1 ++ .b 10 :: A2 = (A1 ++ [.b 10]) ++ send 0x01 Config.target.drvOut := by simp [l2]
      rw [this]; exact last_send _ _ _
    rw [List.take_length_add_append, Nat.add_comm 1 k, List.take_succ_cons]
    rcases barrier_position st3 g2 with rfl | ⟨k, rfl, g3⟩
    · rw [List.take_left]
      have : A1 ++ .b 10 :: (A2 ++ .b 10 :: A3) = (A1 ++ .b 10 :: (A2 ++ .b 10 :: a3)) ++ send 0x20 [] := by simp [l3]
      rw [this]; exact last_send _ _ _
    rw [List.take_length_add_append, Nat.add_comm 1 k, List.take_succ_cons]
    rcases barrier_position st4 g3 with rfl | ⟨k, rfl, g4⟩
    · rw [List.take_left]
      have : A1 ++ .b 10 :: (A2 ++ .b 10 :: (A3 ++ .b 50 :: A4)) = (A1 ++ .b 10 :: (A2 ++ .b 10 :: (A3 ++ .b 50 :: a4))) ++ send 0x20 [] := by simp [l4]
      rw [this]; exact last_send _ _ _
    exact absurd (List.all_eq_true.mp st5 _ (List.mem_of_getElem? g4)) (by simp)

theorem leavesOpen_snoc (a : List MicroOp) (m : MicroOp) : leavesOpen (a ++ [m]) = match m with
   | .w .cs .low => true
   | .w .cs .high => false
   | _ => leavesOpen a := by
  unfold leavesOpen
  rw [List.foldl_append]
  cases m with
  | w p l => cases p <;> cases l <;> rfl
  | d => rfl
  | b => rfl

theorem take_succ_of {l : List MicroOp} {n : Nat} {m} (h : l[n]? = some m) : l.take (n+1) = l.take n ++ [m] := by
  rw [List.take_add_one, h]; rfl

end Sys2Proof.Machine
end

