-- ==== Sys2Proof/Laws/Receiver.lean ====
section
/-! SUPPORT. What the receiver reads of the serializer's frames (41_seriallink.md R460, R461). -/

namespace Sys2Proof.Machine

@[simp] theorem observeAll_nil (r : Receiver) : observeAll r [] = r := rfl

@[simp] theorem observeAll_cons (r : Receiver) (e : Event) (es : List Event) :
    observeAll r (e :: es) = observeAll (observe r e) es := rfl

@[simp] theorem observeAll_append (r : Receiver) (a b : List Event) :
    observeAll r (a ++ b) = observeAll (observeAll r a) b := by
  simp [observeAll, List.foldl_append]

/-- The receiver's lines follow every pin write. -/
theorem observe_wr_lines (r : Receiver) (p : OutPin) (l : Level) :
    (observe r (.wr p l)).lines = setLine r.lines p (some l) := by
  cases p <;> cases l <;> simp only [observe] <;> repeat' split
  all_goals rfl

theorem observeAll_lines (r : Receiver) (ms : List MicroOp) :
    (observeAll r (ms.flatMap eventsOf)).lines = linesAfter r.lines ms := by
  induction ms generalizing r with
  | nil => rfl
  | cons m rest ih =>
    rw [List.flatMap_cons, observeAll_append, ih]
    cases m with
    | w p l => simp [eventsOf, observe_wr_lines]
    | d ms => rfl
    | b iv => rfl

/-! ### Samples of a byte -/

/-- One bit cell in an open frame is one sample. -/
theorem observe_bitCell (r : Receiver) (v : Level) (h : r.lines.cs = some .low) :
    observeAll r ((bitCell v).flatMap eventsOf) =
      ⟨{ r.lines with din := some v, clk := some .high }, ⟨some v, r.lines.dc⟩ :: r.samples, r.frames⟩ := by
  simp [bitCell, eventsOf, observe, setLine, h]

/-- The cells of a list of levels in an open frame: one sample each, in order. -/
theorem observe_cells (vs : List Level) (r : Receiver) (h : r.lines.cs = some .low) :
    (observeAll r ((vs.flatMap bitCell).flatMap eventsOf)).samples =
        (vs.map fun v => ⟨some v, r.lines.dc⟩).reverse ++ r.samples ∧
      (observeAll r ((vs.flatMap bitCell).flatMap eventsOf)).frames = r.frames ∧
      (observeAll r ((vs.flatMap bitCell).flatMap eventsOf)).lines.cs = some .low ∧
      (observeAll r ((vs.flatMap bitCell).flatMap eventsOf)).lines.dc = r.lines.dc := by
  induction vs generalizing r with
  | nil => simp [h]
  | cons v rest ih =>
    simp only [List.flatMap_cons, List.flatMap_append, observeAll_append, observe_bitCell r v h]
    obtain ⟨h1, h2, h3, h4⟩ := ih
      ⟨{ r.lines with din := some v, clk := some .high }, ⟨some v, r.lines.dc⟩ :: r.samples, r.frames⟩ h
    exact ⟨by rw [h1]; simp, h2, h3, h4⟩

theorem assembleByte_msb (b : Byte) :
    assembleByte (some (lvlOf (b.getLsbD 7))) (some (lvlOf (b.getLsbD 6))) (some (lvlOf (b.getLsbD 5)))
      (some (lvlOf (b.getLsbD 4))) (some (lvlOf (b.getLsbD 3))) (some (lvlOf (b.getLsbD 2)))
      (some (lvlOf (b.getLsbD 1))) (some (lvlOf (b.getLsbD 0))) = some b := by
  revert b
  decide

theorem assembleByte_inv (b : Byte) :
    assembleByte (some (lvlOf (!b.getLsbD 0))) (some (lvlOf (!b.getLsbD 1))) (some (lvlOf (!b.getLsbD 2)))
      (some (lvlOf (!b.getLsbD 3))) (some (lvlOf (!b.getLsbD 4))) (some (lvlOf (!b.getLsbD 5)))
      (some (lvlOf (!b.getLsbD 6))) (some (lvlOf (!b.getLsbD 7))) = some (wireOf b) := by
  revert b
  decide

/-- A byte's levels at a known DC level assemble to one wire byte. -/
def Reads (levels : Byte → List Level) (value : Byte → Byte) : Prop :=
  ∀ (b : Byte) (dc : Level) (rest : List Sample),
    assemble ((levels b).map (fun v => ⟨some v, some dc⟩) ++ rest) =
      ⟨if dc = .low then .command else .data, some (value b)⟩ :: assemble rest

theorem reads_msb : Reads levelsMsb id := by
  intro b dc rest
  simpa [levelsMsb, assemble] using assembleByte_msb b

theorem reads_inv : Reads levelsInv wireOf := by
  intro b dc rest
  simpa [levelsInv, assemble] using assembleByte_inv b

/-- The data bytes of an open frame. -/
theorem observe_data (levels : Byte → List Level) (d : List Byte) (r : Receiver) (h : r.lines.cs = some .low) :
    (observeAll r ((d.flatMap fun b => .w .dc .high :: (levels b).flatMap bitCell).flatMap eventsOf)).samples =
        (d.flatMap fun b => (levels b).map fun v => (⟨some v, some .high⟩ : Sample)).reverse ++ r.samples ∧
      (observeAll r ((d.flatMap fun b => .w .dc .high :: (levels b).flatMap bitCell).flatMap eventsOf)).frames
        = r.frames ∧
      (observeAll r ((d.flatMap fun b => .w .dc .high :: (levels b).flatMap bitCell).flatMap eventsOf)).lines.cs
        = some .low := by
  induction d generalizing r with
  | nil => simp [h]
  | cons b rest ih =>
    have hd : observe r (.wr .dc .high) = { r with lines := { r.lines with dc := some .high } } := rfl
    simp only [List.flatMap_cons, List.flatMap_append, List.cons_append, observeAll_append, eventsOf,
      List.nil_append, observeAll_cons, hd]
    obtain ⟨h1, h2, h3, h4⟩ := observe_cells (levels b) { r with lines := { r.lines with dc := some .high } } h
    obtain ⟨i1, i2, i3⟩ := ih _ h3
    refine ⟨?_, ?_, i3⟩
    · rw [i1, h1]; simp
    · rw [i2, h2]

theorem assemble_data {levels : Byte → List Level} {value : Byte → Byte} (hr : Reads levels value) (d : List Byte) :
    assemble (d.flatMap fun b => (levels b).map fun v => (⟨some v, some .high⟩ : Sample)) =
      d.map fun b => ⟨.data, some (value b)⟩ := by
  induction d with
  | nil => rfl
  | cons b rest ih => rw [List.flatMap_cons, hr, ih]; rfl

/-- A whole frame: the receiver closes one frame of the command byte and the data bytes. -/
theorem observe_frame {levels : Byte → List Level} {value : Byte → Byte} (hr : Reads levels value)
    (op : Byte) (d : List Byte) (r : Receiver) (h : r.lines.cs ≠ some .low) :
    (observeAll r ((frameWith (fun b => (levels b).flatMap bitCell) op d).flatMap eventsOf)).frames =
      (⟨.command, some op⟩ :: d.map fun b => ⟨.data, some (value b)⟩) :: r.frames := by
  have h0 : observeAll r ([MicroOp.w .cs .low, .w .dc .low].flatMap eventsOf) =
      ⟨{ r.lines with cs := some .low, dc := some .low }, [], r.frames⟩ := by
    simp [eventsOf, observe, setLine, h]
  obtain ⟨a1, a2, a3, a4⟩ := observe_cells (levelsMsb op)
    ⟨{ r.lines with cs := some .low, dc := some .low }, [], r.frames⟩ rfl
  obtain ⟨b1, b2, b3⟩ := observe_data levels d _ a3
  simp only [frameWith, frameHead, msbFirst_eq, List.flatMap_append, observeAll_append, h0]
  generalize hq : observeAll _ ((d.flatMap fun b => .w .dc .high :: (levels b).flatMap bitCell).flatMap eventsOf) = q at *
  simp only [List.flatMap_cons, List.flatMap_nil, eventsOf, List.append_nil, observeAll_cons, observeAll_nil, observe, b3,
    if_true]
  rw [b1, a1, b2, a2]
  simp only [List.reverse_append, List.reverse_reverse, List.reverse_nil, List.nil_append]
  rw [reads_msb, assemble_data hr]
  rfl

theorem observe_send (op : Byte) (d : List Byte) (r : Receiver) (h : r.lines.cs ≠ some .low) :
    (observeAll r ((send op d).flatMap eventsOf)).frames =
      (⟨.command, some op⟩ :: d.map fun b => ⟨.data, some b⟩) :: r.frames := by
  have : send op d = frameWith (fun b => (levelsMsb b).flatMap bitCell) op d := by
    simp only [send_eq, frameWith, msbFirst_eq]
  rw [this]
  exact observe_frame reads_msb op d r h

theorem observe_streamFrame (op : Byte) (d : List Byte) (r : Receiver) (h : r.lines.cs ≠ some .low) :
    (observeAll r ((streamFrame op d).flatMap eventsOf)).frames =
      (⟨.command, some op⟩ :: d.map fun b => ⟨.data, some (wireOf b)⟩) :: r.frames := by
  have : streamFrame op d = frameWith (fun b => (levelsInv b).flatMap bitCell) op d := by
    simp only [streamFrame_eq, frameWith, lsbInverted_eq]
  rw [this]
  exact observe_frame reads_inv op d r h

/-! ### Frames one after the other -/

/-- Micro-op lists that each close one frame close their frames in order. -/
theorem observe_sends (r : Receiver) (fs : List (List MicroOp × WireFrame)) (h : r.lines.cs ≠ some .low)
   (hf : ∀ f ∈ fs, ∀ r : Receiver, r.lines.cs ≠ some .low → (observeAll r (f.1.flatMap eventsOf)).frames = f.2 :: r.frames ∧
      (observeAll r (f.1.flatMap eventsOf)).lines.cs ≠ some .low) :
   (observeAll r ((fs.flatMap (·.1)).flatMap eventsOf)).frames = (fs.map (·.2)).reverse ++ r.frames ∧
     (observeAll r ((fs.flatMap (·.1)).flatMap eventsOf)).lines.cs ≠ some .low := by
  induction fs generalizing r with
  | nil => exact ⟨rfl, h⟩
  | cons f rest ih =>
    obtain ⟨a1, a2⟩ := hf f (by simp) r h
    obtain ⟨b1, b2⟩ := ih _ a2 (fun f' hf' => hf f' (by simp [hf']))
    simp only [List.flatMap_cons, List.flatMap_append, observeAll_append]
    refine ⟨?_, b2⟩
    rw [b1, a1]; simp

/-- A `send` frame closes one frame and leaves CS HIGH. -/
theorem closes_send (op : Byte) (d : List Byte) (r : Receiver) (h : r.lines.cs ≠ some .low) :
   (observeAll r ((send op d).flatMap eventsOf)).frames = (⟨.command, some op⟩ :: d.map fun b => ⟨.data, some b⟩) :: r.frames ∧
      (observeAll r ((send op d).flatMap eventsOf)).lines.cs ≠ some .low := by
  refine ⟨observe_send op d r h, ?_⟩
  rw [observeAll_lines, linesAfter_send]
  split <;> simp

/-- A `streamFrame` frame closes one frame and leaves CS HIGH. -/
theorem closes_stream (op : Byte) (d : List Byte) (r : Receiver) (h : r.lines.cs ≠ some .low) :
   (observeAll r ((streamFrame op d).flatMap eventsOf)).frames = (⟨.command, some op⟩ :: d.map fun b => ⟨.data, some (wireOf b)⟩) :: r.frames ∧
      (observeAll r ((streamFrame op d).flatMap eventsOf)).lines.cs ≠ some .low := by
  refine ⟨observe_streamFrame op d r h, ?_⟩
  rw [observeAll_lines, linesAfter_streamFrame]
  split <;> simp

end Sys2Proof.Machine
end

