-- ==== Sys2Proof/Laws/Sequencer.lean ====
section
/-! SUPPORT. What the sequencer does over many steps: lists without a barrier, barriers, and runs of the machine. -/

namespace Sys2Proof.Machine

@[simp] theorem andThen_next (s : State) (f : State → Result) : andThen (.next s) f = f s := rfl
@[simp] theorem andThen_fault (e : Fault) (f : State → Result) : andThen (.fault e) f = .fault e := rfl
@[simp] theorem andThen_refused (e : Refusal) (f : State → Result) : andThen (.refused e) f = .refused e := rfl

theorem dirOf_claimed (p : OutPin) : dirOf Dirs.claimed (.out p) = .output := by cases p <;> rfl

/-! ### Lists without a barrier -/

/-- The state after a list without a barrier. -/
def afterStraight (ms : List MicroOp) (s : State) : State :=
  { s with
    lvl := linesAfter s.lvl ms
    upc := s.upc + ms.length
    trace := (ms.flatMap eventsOf).reverse ++ s.trace }

@[simp] theorem afterStraight_cfg (ms : List MicroOp) (s : State) :
    (afterStraight ms s).cfg = s.cfg := rfl
@[simp] theorem afterStraight_life (ms : List MicroOp) (s : State) :
    (afterStraight ms s).life = s.life := rfl
@[simp] theorem afterStraight_fb (ms : List MicroOp) (s : State) :
    (afterStraight ms s).fb = s.fb := rfl
@[simp] theorem afterStraight_dir (ms : List MicroOp) (s : State) :
    (afterStraight ms s).dir = s.dir := rfl
@[simp] theorem afterStraight_lvl (ms : List MicroOp) (s : State) :
    (afterStraight ms s).lvl = linesAfter s.lvl ms := rfl
@[simp] theorem afterStraight_upc (ms : List MicroOp) (s : State) :
    (afterStraight ms s).upc = s.upc + ms.length := rfl
@[simp] theorem afterStraight_prog (ms : List MicroOp) (s : State) :
    (afterStraight ms s).prog = s.prog := rfl
@[simp] theorem afterStraight_elapsed (ms : List MicroOp) (s : State) :
    (afterStraight ms s).elapsed = s.elapsed := rfl
@[simp] theorem afterStraight_faultHostConflict (ms : List MicroOp) (s : State) :
    (afterStraight ms s).faultHostConflict = s.faultHostConflict := rfl
@[simp] theorem afterStraight_trace (ms : List MicroOp) (s : State) :
    (afterStraight ms s).trace = (ms.flatMap eventsOf).reverse ++ s.trace := rfl
@[simp] theorem afterStraight_inputs (ms : List MicroOp) (s : State) :
    (afterStraight ms s).inputs = s.inputs := rfl
@[simp] theorem afterStraight_busyIn (ms : List MicroOp) (s : State) :
    (afterStraight ms s).busyIn = s.busyIn := rfl
@[simp] theorem afterStraight_draws (ms : List MicroOp) (s : State) :
    (afterStraight ms s).draws = s.draws := rfl
@[simp] theorem afterStraight_issue (ms : List MicroOp) (s : State) :
    (afterStraight ms s).issue = s.issue := rfl

theorem afterStraight_nil (s : State) : afterStraight [] s = s := rfl

theorem afterStraight_append (a b : List MicroOp) (s : State) :
    afterStraight (a ++ b) s = afterStraight b (afterStraight a s) := by
  simp [afterStraight, Nat.add_assoc]

theorem afterStraight_cons (m : MicroOp) (ms : List MicroOp) (s : State) :
    afterStraight (m :: ms) s = afterStraight ms (afterStraight [m] s) :=
  afterStraight_append [m] ms s

theorem microStep_straight {m : MicroOp} {s : State} (hm : m.straight = true) (hd : s.dir = Dirs.claimed) :
    microStep m s = .next (afterStraight [m] s) := by
  cases m with
  | w p l =>
    have : dirOf s.dir (.out p) = .output := by rw [hd, dirOf_claimed]
    rw [microStep, pinWrite, if_pos this]
    rfl
  | d ms => rfl
  | b iv => cases hm

/-- The micro-ops of a list without a barrier, one after the other, with the pins claimed. -/
theorem emit_straight {ms : List MicroOp} {s : State} (hm : ms.all MicroOp.straight = true)
    (hd : s.dir = Dirs.claimed) : emit ms s = .next (afterStraight ms s) := by
  induction ms generalizing s with
  | nil => rfl
  | cons m rest ih =>
    simp only [List.all_cons, Bool.and_eq_true] at hm
    have := ih (s := afterStraight [m] s) hm.2 hd
    rw [emit, microStep_straight hm.1 hd, andThen_next, this, ← afterStraight_cons]

/-- A wire command inside a refresh with the pins claimed. -/
theorem transact_writes {ms : List MicroOp} {s : State} (hm : ms.all MicroOp.isWrite = true)
    (hl : s.life = .refreshing) (hd : s.dir = Dirs.claimed) : transact ms s = .next (afterStraight ms s) := by
  rw [transact, if_pos hl, emit_straight (straight_of_isWrite hm) hd]

/-- Every wire command is the transaction of its frame. -/
theorem exec_wire (i : Instr) (s : State) (h : i.isHost = false) :
    exec i s = transact (frameOf i s.cfg s.fb) s := by
  cases i <;> first | (simp [Instr.isHost] at h; done) | rfl

/-! ### Runs -/

theorem coreRun_next (M : Host.Core) (n : Nat) {s t : M.State} (h : M.step s = .next t) :
    M.run (n + 1) s = M.run n t := by rw [Host.Core.run, h]

theorem coreRun_fault (M : Host.Core) (n : Nat) {s : M.State} {e : M.Fault} (h : M.step s = .fault e) :
    M.run (n + 1) s = .fault e := by rw [Host.Core.run, h]

theorem coreRun_refused (M : Host.Core) (n : Nat) {s : M.State} {e : M.Refusal} (h : M.step s = .refused e) :
    M.run (n + 1) s = .refused e := by rw [Host.Core.run, h]

/-- The runs of this file are the host's. -/
theorem runs_eq_core_run (n : Nat) (s : State) : Host.Core.run Sys2Proof.core n s = runs n s := by
  induction n generalizing s with
  | zero => rfl
  | succ n ih =>
    rw [runs]
    cases h : step s with
    | next t => exact (coreRun_next Sys2Proof.core n h).trans (ih t)
    | fault e => exact coreRun_fault Sys2Proof.core n h
    | refused e => exact coreRun_refused Sys2Proof.core n h

theorem run_zero (s : State) : runs 0 s = .next s := rfl

theorem run_succ_eq (n : Nat) (s : State) : runs (n + 1) s = andThen (step s) (runs n) := rfl

theorem run_succ {s t : State} (n : Nat) (h : step s = .next t) : runs (n + 1) s = runs n t := by
  rw [run_succ_eq, h, andThen_next]

theorem run_one {s t : State} (h : step s = .next t) : runs 1 s = .next t := by
  rw [run_succ 0 h]; rfl

/-- Runs compose. -/
theorem run_add {s t : State} {m n : Nat} (h : runs m s = .next t) :
    runs (m + n) s = runs n t := by
  induction m generalizing s with
  | zero =>
    cases h
    rw [Nat.zero_add]
  | succ m ih =>
    rw [run_succ_eq] at h
    rw [show m + 1 + n = (m + n) + 1 by omega, run_succ_eq]
    cases hst : step s with
    | next s' => rw [hst] at h; exact ih h
    | fault r => rw [hst] at h; cases h
    | refused r => rw [hst] at h; cases h

/-- The sequencer runs undisturbed: no input, no issued frame, a refresh with its pins claimed. -/
structure Undisturbed (s : State) : Prop where
  issue : s.issue = none
  inputs : s.inputs = []
  life : s.life = .refreshing
  dir : s.dir = Dirs.claimed

theorem step_undisturbed {s : State} (h : Undisturbed s) : step s = sequencerStep s := by
  simp [step, h.issue, h.inputs, advance, h.life]

theorem Undisturbed.afterStraight {s : State} (h : Undisturbed s) (ms : List MicroOp) :
    Undisturbed (afterStraight ms s) := ⟨h.issue, h.inputs, h.life, h.dir⟩

theorem getElem?_of_drop {l : List MicroOp} {n : Nat} {m : MicroOp} {rest : List MicroOp} (h : l.drop n = m :: rest) :
    l[n]? = some m := by
  have := congrArg List.head? h
  simpa [List.head?_drop] using this

theorem drop_succ_of_drop {l : List MicroOp} {n : Nat} {m : MicroOp} {rest : List MicroOp} (h : l.drop n = m :: rest) :
    l.drop (n + 1) = rest := by
  have := congrArg List.tail h
  simpa [List.tail_drop] using this

theorem sequencerStep_at {s : State} {m : MicroOp} (h : s.prog[s.upc]? = some m) : sequencerStep s = microStep m s := by
  rw [sequencerStep, h]

/-- A stretch of the program without a barrier. -/
theorem run_straight {ms rest : List MicroOp} {s : State} (h : Undisturbed s) (hp : s.prog.drop s.upc = ms ++ rest)
    (hm : ms.all MicroOp.straight = true) :
    runs ms.length s = .next (afterStraight ms s) := by
  induction ms generalizing s with
  | nil => rfl
  | cons m tl ih =>
    simp only [List.all_cons, Bool.and_eq_true] at hm
    have hst : step s = .next (afterStraight [m] s) := by
      rw [step_undisturbed h, sequencerStep_at (getElem?_of_drop hp), microStep_straight hm.1 h.dir]
    rw [List.length_cons, run_succ _ hst, ih (h.afterStraight [m]) (drop_succ_of_drop hp) hm.2, ← afterStraight_cons]

theorem drop_afterStraight {ms rest : List MicroOp} {s : State} (hp : s.prog.drop s.upc = ms ++ rest) :
    (afterStraight ms s).prog.drop (afterStraight ms s).upc = rest := by
  show s.prog.drop (s.upc + ms.length) = rest
  rw [← List.drop_drop, hp, List.drop_left]

/-! ### Barriers -/

/-- A LOW read. -/
theorem barrier_low {s : State} {iv : Nat} (hd : s.dir = Dirs.claimed) (hb : nextBusy s = .low) :
    barrier iv s = .next (barrierPass (busyRead s)) := by
  simp [barrier, hd, Dirs.claimed, hb]

/-- A HIGH read before the timeout. -/
theorem barrier_high {s : State} {iv : Nat} (hd : s.dir = Dirs.claimed) (hb : nextBusy s = .high)
    (ht : timedOut s = false) : barrier iv s = .next (barrierPoll iv (busyRead s)) := by
  simp [barrier, hd, Dirs.claimed, hb, ht]

/-- A HIGH read at the timeout. -/
theorem barrier_timeout {s : State} {iv : Nat} (hd : s.dir = Dirs.claimed) (hb : nextBusy s = .high)
    (ht : timedOut s = true) : barrier iv s = .next (endRefresh .panelUnresponsive (busyRead s)) := by
  simp [barrier, hd, Dirs.claimed, hb, ht]

theorem nextBusy_cons {s : State} {l : Level} {rest : List Level} (h : s.busyIn = l :: rest) : nextBusy s = l := by
  simp [nextBusy, h]

/-- The state after n polls of a barrier, the scheduled HIGH levels used up. -/
def afterPolls (iv n : Nat) (rest : List Level) (s : State) : State :=
  { s with
    busyIn := rest
    elapsed := s.elapsed + n * iv
    trace := (List.replicate n [Event.dly iv, Event.rd .high]).flatten ++ s.trace }

theorem busyRead_cons {s : State} {l : Level} {rest : List Level} (h : s.busyIn = l :: rest) :
    busyRead s = { s with busyIn := rest, trace := .rd l :: s.trace } := by
  simp [busyRead, record, nextBusy, h]

/-- A barrier reached in a refresh, the scheduled level LOW. -/
theorem step_barrier_low {s : State} {iv : Nat} {rest : List Level} (h : Undisturbed s)
    (hp : s.prog[s.upc]? = some (.b iv)) (hb : s.busyIn = .low :: rest) :
    step s = .next (barrierPass { s with busyIn := rest, trace := .rd .low :: s.trace }) := by
  rw [step_undisturbed h, sequencerStep_at hp, microStep, barrier_low h.dir (nextBusy_cons hb), busyRead_cons hb]

/-- A barrier reached in a refresh, the scheduled level HIGH and the timeout reached. -/
theorem step_barrier_timeout {s : State} {iv T : Nat} {rest : List Level} (h : Undisturbed s)
    (hp : s.prog[s.upc]? = some (.b iv)) (hb : s.busyIn = .high :: rest) (hT : s.cfg.busyTimeout = some T)
    (hle : T ≤ s.elapsed) :
    step s = .next (endRefresh .panelUnresponsive { s with busyIn := rest, trace := .rd .high :: s.trace }) := by
  rw [step_undisturbed h, sequencerStep_at hp, microStep,
    barrier_timeout h.dir (nextBusy_cons hb) (by simp [timedOut, hT, hle]), busyRead_cons hb]

/-- Polls of a barrier whose BUSY reads HIGH, as long as the timeout is not reached. -/
theorem run_polls {iv n : Nat} {rest : List Level} {s : State} (h : Undisturbed s) (hp : s.prog[s.upc]? = some (.b iv))
    (hb : s.busyIn = List.replicate n .high ++ rest)
    (ht : ∀ T, s.cfg.busyTimeout = some T → ∀ k, k < n → s.elapsed + k * iv < T) :
    runs n s = .next (afterPolls iv n rest s) := by
  induction n generalizing s with
  | zero =>
    simp only [List.replicate_zero, List.nil_append] at hb
    simp [run_zero, afterPolls, ← hb]
  | succ n ih =>
    rw [List.replicate_succ, List.cons_append] at hb
    have hto : timedOut s = false := by
      unfold timedOut
      split
      · rfl
      · rename_i T hT
        have := ht T hT 0 (Nat.succ_pos n)
        simp; omega
    have hst : step s = .next (barrierPoll iv (busyRead s)) := by
      rw [step_undisturbed h, sequencerStep_at hp]
      exact barrier_high h.dir (nextBusy_cons hb) hto
    rw [run_succ n hst, busyRead_cons hb]
    have := ih (s := barrierPoll iv { s with busyIn := List.replicate n .high ++ rest, trace := .rd .high :: s.trace })
      ⟨h.issue, h.inputs, h.life, h.dir⟩ hp rfl (by
        intro T hT k hk
        have := ht T hT (k + 1) (by omega)
        simp only [barrierPoll_elapsed, Nat.succ_mul] at this ⊢
        omega)
    rw [this]
    simp only [afterPolls, barrierPoll, delay, record]
    congr 2
    · rw [Nat.succ_mul]; omega
    · rw [List.replicate_succ', List.flatten_append]; simp

/-! ### Legs of the program -/

/-- The state after a stretch without a barrier and the barrier behind it, which reads HIGH n times and then LOW. -/
def afterLeg (ms : List MicroOp) (iv n : Nat) (br : List Level) (s : State) : State :=
  { s with
    lvl := linesAfter s.lvl ms
    upc := s.upc + (ms.length + 1)
    elapsed := 0
    busyIn := br
    trace := .rd .low :: ((List.replicate n [Event.dly iv, Event.rd .high]).flatten ++ ((ms.flatMap eventsOf).reverse ++ s.trace)) }

@[simp] theorem afterLeg_cfg (ms : List MicroOp) (iv : Nat) (n : Nat) (br : List Level) (s : State) :
    (afterLeg ms iv n br s).cfg = s.cfg := rfl
@[simp] theorem afterLeg_life (ms : List MicroOp) (iv : Nat) (n : Nat) (br : List Level) (s : State) :
    (afterLeg ms iv n br s).life = s.life := rfl
@[simp] theorem afterLeg_fb (ms : List MicroOp) (iv : Nat) (n : Nat) (br : List Level) (s : State) :
    (afterLeg ms iv n br s).fb = s.fb := rfl
@[simp] theorem afterLeg_dir (ms : List MicroOp) (iv : Nat) (n : Nat) (br : List Level) (s : State) :
    (afterLeg ms iv n br s).dir = s.dir := rfl
@[simp] theorem afterLeg_lvl (ms : List MicroOp) (iv : Nat) (n : Nat) (br : List Level) (s : State) :
    (afterLeg ms iv n br s).lvl = linesAfter s.lvl ms := rfl
@[simp] theorem afterLeg_upc (ms : List MicroOp) (iv : Nat) (n : Nat) (br : List Level) (s : State) :
    (afterLeg ms iv n br s).upc = s.upc + (ms.length + 1) := rfl
@[simp] theorem afterLeg_prog (ms : List MicroOp) (iv : Nat) (n : Nat) (br : List Level) (s : State) :
    (afterLeg ms iv n br s).prog = s.prog := rfl
@[simp] theorem afterLeg_elapsed (ms : List MicroOp) (iv : Nat) (n : Nat) (br : List Level) (s : State) :
    (afterLeg ms iv n br s).elapsed = 0 := rfl
@[simp] theorem afterLeg_faultHostConflict (ms : List MicroOp) (iv : Nat) (n : Nat) (br : List Level) (s : State) :
    (afterLeg ms iv n br s).faultHostConflict = s.faultHostConflict := rfl
@[simp] theorem afterLeg_trace (ms : List MicroOp) (iv : Nat) (n : Nat) (br : List Level) (s : State) :
    (afterLeg ms iv n br s).trace = .rd .low :: ((List.replicate n [Event.dly iv, Event.rd .high]).flatten ++
      ((ms.flatMap eventsOf).reverse ++ s.trace)) := rfl
@[simp] theorem afterLeg_inputs (ms : List MicroOp) (iv : Nat) (n : Nat) (br : List Level) (s : State) :
    (afterLeg ms iv n br s).inputs = s.inputs := rfl
@[simp] theorem afterLeg_busyIn (ms : List MicroOp) (iv : Nat) (n : Nat) (br : List Level) (s : State) :
    (afterLeg ms iv n br s).busyIn = br := rfl
@[simp] theorem afterLeg_draws (ms : List MicroOp) (iv : Nat) (n : Nat) (br : List Level) (s : State) :
    (afterLeg ms iv n br s).draws = s.draws := rfl
@[simp] theorem afterLeg_issue (ms : List MicroOp) (iv : Nat) (n : Nat) (br : List Level) (s : State) :
    (afterLeg ms iv n br s).issue = s.issue := rfl

/-- A leg of a refresh: up to a barrier, and through it, where no HIGH read comes at the timeout. -/
theorem run_leg {ms rest : List MicroOp} {iv n : Nat} {br : List Level} {s : State} (h : Undisturbed s)
    (hp : s.prog.drop s.upc = ms ++ .b iv :: rest) (hm : ms.all MicroOp.straight = true)
    (hb : s.busyIn = List.replicate n .high ++ .low :: br)
    (hT : ∀ T, s.cfg.busyTimeout = some T → ∀ k, k < n → s.elapsed + k * iv < T) :
    runs (ms.length + (n + 1)) s = .next (afterLeg ms iv n br s) := by
  rw [run_add (run_straight h hp hm)]
  have h1 := h.afterStraight ms
  have hp1 := getElem?_of_drop (drop_afterStraight hp)
  rw [run_add (run_polls (rest := .low :: br) h1 hp1 hb hT)]
  apply run_one
  rw [step_barrier_low (s := afterPolls iv n (.low :: br) (afterStraight ms s)) (rest := br) ⟨h1.issue, h1.inputs, h1.life, h1.dir⟩ hp1 rfl]
  rfl

theorem Undisturbed.afterLeg {s : State} (h : Undisturbed s) (ms : List MicroOp) (iv n : Nat) (br : List Level) :
    Undisturbed (afterLeg ms iv n br s) := ⟨h.issue, h.inputs, h.life, h.dir⟩

theorem drop_afterLeg {ms rest : List MicroOp} {iv n : Nat} {br : List Level} {s : State}
    (hp : s.prog.drop s.upc = ms ++ .b iv :: rest) :
    (afterLeg ms iv n br s).prog.drop (afterLeg ms iv n br s).upc = rest := by
  show s.prog.drop (s.upc + (ms.length + 1)) = rest
  rw [← Nat.add_assoc]
  exact drop_succ_of_drop (drop_afterStraight (ms := ms) (rest := .b iv :: rest) hp)

/-- What a barrier records closes no frame and moves no line. -/
theorem observe_polls (r : Receiver) (iv n : Nat) :
    observeAll r ((List.replicate n [Event.dly iv, Event.rd .high]).flatten.reverse) = r := by
  induction n with
  | zero => rfl
  | succ n ih =>
    rw [List.replicate_succ, List.flatten_cons, List.reverse_append, observeAll_append, ih]
    rfl

/-- The receiver after a trace (stored newest first). -/
def seen (tr : List Event) : Receiver := observeAll .start tr.reverse

theorem seen_leg (ms : List MicroOp) (iv n : Nat) (br : List Level) (s : State) :
    seen (afterLeg ms iv n br s).trace = observeAll (seen s.trace) (ms.flatMap eventsOf) := by
  simp only [seen, afterLeg, List.reverse_cons, List.reverse_append, observeAll_append, observe_polls, List.reverse_reverse]
  rfl

end Sys2Proof.Machine
end

