-- ==== Sys2Proof/Laws/Step.lean ====
section
/-! SUPPORT. What a step can do, said once: the effects of a host word, of a sequencer step and of a step, and that
nothing else happens. -/

namespace Sys2Proof.Machine

/-! ### Host words -/

/-- What a host word can do (44_host_interface.md R602 and the operations' rules). -/
inductive HostEffect (i : Instr) (s : State) : State → Prop where
  | conflict (op : OpCode) (ho : opOf i = some op) (hl : s.life = .refreshing) :
      HostEffect i s (respond op .hostConflict 0 (setHostConflict s))
  | wrongState (op : OpCode) (ho : opOf i = some op) (hl : s.life ≠ .refreshing)
      (hp : op = opInit ∧ s.life ≠ .unbound ∨ op ≠ opInit ∧ s.life ≠ .ready)
      (hn : ∀ w, i ≠ .reservedHostWord w) :
      HostEffect i s (respond op .wrongState 0 s)
  | illegal (w : HostWord) (hi : i = .reservedHostWord w) (hl : s.life ≠ .refreshing) :
      HostEffect i s (respond (HostWord.op w) .illegalOp 0 s)
  | invalidGeometry (w h : Half) (hi : i = .init w h) (hl : s.life = .unbound)
      (hg : geometryOk s.cfg.fbCapacity w h = false) :
      HostEffect i s (respond opInit .invalidGeometry 0 s)
  | setpxOutside (x y : Half) (d : Bool) (hi : i = .setpx x y d) (hl : s.life = .ready) (hr : inRange s.cfg x y = false) :
      HostEffect i s (respond opSetpx .outOfRange 0 s)
  | getpxOutside (x y : Half) (hi : i = .getpx x y) (hl : s.life = .ready) (hr : inRange s.cfg x y = false) :
      HostEffect i s (respond opGetpx .outOfRange 0 s)
  | init (w h : Half) (hi : i = .init w h) (hl : s.life = .unbound) (hg : geometryOk s.cfg.fbCapacity w h = true) :
      HostEffect i s (respond opInit .ok 0 (construct w h s))
  | clear (hi : i = .clear) (hl : s.life = .ready) : HostEffect i s (respond opClear .ok 0 (fbClear s))
  | setpx (x y : Half) (d : Bool) (hi : i = .setpx x y d) (hl : s.life = .ready) (hr : inRange s.cfg x y = true)
      (ha : addr s.cfg x y < fbSize s.cfg) :
      HostEffect i s (respond opSetpx .ok 0
        (memWrite s (addr s.cfg x y) (withPixel (fbRead s.fb (addr s.cfg x y)) (bitk y) d)))
  | getpx (x y : Half) (hi : i = .getpx x y) (hl : s.life = .ready) (hr : inRange s.cfg x y = true)
      (ha : addr s.cfg x y < fbSize s.cfg) :
      HostEffect i s (respond opGetpx .ok (pixelValue (fbRead s.fb (addr s.cfg x y)) (bitk y)) s)
  | width (hi : i = .width) (hl : s.life = .ready) : HostEffect i s (respond opWidth .ok s.cfg.w s)
  | height (hi : i = .height) (hl : s.life = .ready) : HostEffect i s (respond opHeight .ok s.cfg.h s)
  | refresh (hi : i = .refresh) (hl : s.life = .ready) : HostEffect i s (startRefresh s)
  | teardown (hi : i = .teardown) (hl : s.life = .ready) : HostEffect i s (respond opTeardown .ok 0 (release s))

theorem permitted_init (l : Life) : permitted opInit l = true ↔ l = .unbound := by cases l <;> decide

theorem permitted_other {op : OpCode} (h : op ≠ opInit) (l : Life) : permitted op l = true ↔ l = .ready := by
  cases l <;> simp [permitted, h]

/-- Dispatch: a conflict, a refusal for the lifecycle, or the operation. -/
theorem dispatch_cases {op : OpCode} {body : State → Result} {s t : State} {i : Instr} (ho : opOf i = some op)
    (hn : ∀ w, i ≠ .reservedHostWord w) (h : dispatch op body s = .next t)
    (hb : s.life = (if op = opInit then .unbound else .ready) → body s = .next t → HostEffect i s t) :
    HostEffect i s t := by
  unfold dispatch at h
  split at h
  · rename_i hl
    cases h
    exact .conflict op ho hl
  · rename_i hl
    by_cases hi : op = opInit
    · subst hi
      rw [if_pos rfl] at hb
      split at h
      · rename_i hp; exact hb ((permitted_init _).mp hp) h
      · rename_i hp
        cases h
        exact .wrongState _ ho hl (.inl ⟨rfl, fun hu => hp ((permitted_init _).mpr hu)⟩) hn
    · rw [if_neg hi] at hb
      split at h
      · rename_i hp; exact hb ((permitted_other hi _).mp hp) h
      · rename_i hp
        cases h
        exact .wrongState _ ho hl (.inr ⟨hi, fun hu => hp ((permitted_other hi _).mpr hu)⟩) hn

/-- In READY an operation other than INIT is performed. -/
theorem dispatch_ready {op : OpCode} (h : op ≠ opInit) (body : State → Result) {s : State} (hl : s.life = .ready) :
    dispatch op body s = body s := by
  simp [dispatch, hl, permitted, h]

/-- Before INIT, INIT is performed. -/
theorem dispatch_unbound (body : State → Result) {s : State} (hl : s.life = .unbound) :
    dispatch opInit body s = body s := by
  simp [dispatch, hl, permitted]

/-- During a refresh no operation is performed (R708). -/
theorem dispatch_refreshing (op : OpCode) (body : State → Result) {s : State} (hl : s.life = .refreshing) :
    dispatch op body s = refuseConflict op s := by
  rw [dispatch, if_pos hl]

/-- Outside its lifecycle no operation is performed (R707). -/
theorem dispatch_wrongState {op : OpCode} (body : State → Result) {s : State} (hl : s.life ≠ .refreshing)
    (hp : op = opInit ∧ s.life ≠ .unbound ∨ op ≠ opInit ∧ s.life ≠ .ready) :
    dispatch op body s = raise op .wrongState s := by
  have : ¬permitted op s.life = true := by
    rcases hp with ⟨rfl, h⟩ | ⟨h0, h⟩
    · rwa [permitted_init]
    · rwa [permitted_other h0]
  rw [dispatch, if_neg hl, if_neg this]

/-- Every defined operation goes through the dispatch, with its own OP. -/
theorem exec_dispatch {i : Instr} {op : OpCode} (ho : opOf i = some op) (hn : ∀ w, i ≠ .reservedHostWord w) :
    ∃ body, ∀ s, exec i s = dispatch op body s := by
  cases i
  case reservedHostWord w => exact absurd rfl (hn w)
  case init w h => cases ho; exact ⟨_, fun s => by simp only [exec]; rw [execInit]⟩
  case clear => cases ho; exact ⟨_, fun s => by simp only [exec]; rw [execClear]⟩
  case setpx x y d => cases ho; exact ⟨_, fun s => by simp only [exec]; rw [execSetpx]⟩
  case getpx x y => cases ho; exact ⟨_, fun s => by simp only [exec]; rw [execGetpx]⟩
  case width => cases ho; exact ⟨_, fun s => by simp only [exec]; rw [execWidth]⟩
  case height => cases ho; exact ⟨_, fun s => by simp only [exec]; rw [execHeight]⟩
  case refresh => cases ho; exact ⟨_, fun s => by simp only [exec]; rw [execRefresh]⟩
  case teardown => cases ho; exact ⟨_, fun s => by simp only [exec]; rw [execTeardown]⟩
  all_goals cases ho

theorem memRead_some {s : State} {a : Nat} {b : Byte} (h : memRead s a = some b) :
    a < fbSize s.cfg ∧ b = fbRead s.fb a := by
  unfold memRead at h
  split at h
  · rename_i ha; cases h; exact ⟨ha, rfl⟩
  · cases h

/-- Everything a host word can do. -/
theorem exec_host_cases {i : Instr} {s t : State} (hi : i.isHost = true) (h : exec i s = .next t) :
    HostEffect i s t := by
  cases i
  case init w h' =>
    simp only [exec, execInit] at h
    refine dispatch_cases rfl (fun w h => by cases h) h fun hl hb => ?_
    have hl : s.life = .unbound := hl
    split at hb
    · rename_i hg; cases hb; exact .init w h' rfl hl hg
    · rename_i hg; cases hb; exact .invalidGeometry w h' rfl hl (by simpa using hg)
  case clear =>
    simp only [exec, execClear] at h
    refine dispatch_cases rfl (fun w h => by cases h) h fun hl hb => ?_
    cases hb; exact .clear rfl hl
  case setpx x y d =>
    simp only [exec, execSetpx] at h
    refine dispatch_cases rfl (fun w h => by cases h) h fun hl hb => ?_
    have hl : s.life = .ready := hl
    split at hb
    · rename_i hr
      split at hb
      · rename_i b hm
        cases hb
        obtain ⟨ha, rfl⟩ := memRead_some hm
        exact .setpx x y d rfl hl hr ha
      · cases hb
    · rename_i hr; cases hb; exact .setpxOutside x y d rfl hl (by simpa using hr)
  case getpx x y =>
    simp only [exec, execGetpx] at h
    refine dispatch_cases rfl (fun w h => by cases h) h fun hl hb => ?_
    have hl : s.life = .ready := hl
    split at hb
    · rename_i hr
      split at hb
      · rename_i b hm
        cases hb
        obtain ⟨ha, rfl⟩ := memRead_some hm
        exact .getpx x y rfl hl hr ha
      · cases hb
    · rename_i hr; cases hb; exact .getpxOutside x y rfl hl (by simpa using hr)
  case width =>
    simp only [exec, execWidth] at h
    refine dispatch_cases rfl (fun w h => by cases h) h fun hl hb => ?_
    cases hb; exact .width rfl hl
  case height =>
    simp only [exec, execHeight] at h
    refine dispatch_cases rfl (fun w h => by cases h) h fun hl hb => ?_
    cases hb; exact .height rfl hl
  case refresh =>
    simp only [exec, execRefresh] at h
    refine dispatch_cases rfl (fun w h => by cases h) h fun hl hb => ?_
    cases hb; exact .refresh rfl hl
  case teardown =>
    simp only [exec, execTeardown] at h
    refine dispatch_cases rfl (fun w h => by cases h) h fun hl hb => ?_
    cases hb; exact .teardown rfl hl
  case reservedHostWord w =>
    have h : execReservedHostWord w s = .next t := h
    unfold execReservedHostWord at h
    split at h
    · rename_i hl; cases h; exact .conflict _ rfl hl
    · rename_i hl; cases h; exact .illegal w rfl hl
  all_goals simp [Instr.isHost] at hi

/-! ### The sequencer -/

/-- What a sequencer step can do (43_sequencer.md R567, R556, R568, R569). -/
inductive SeqEffect (s : State) : State → Prop where
  | straight (m : MicroOp) (hp : s.prog[s.upc]? = some m) (hm : m.straight = true)
      (hd : ∀ p l, m = .w p l → dirOf s.dir (.out p) = .output) : SeqEffect s (afterStraight [m] s)
  | pass (iv : Nat) (hp : s.prog[s.upc]? = some (.b iv)) (hb : nextBusy s = .low) :
      SeqEffect s (barrierPass (busyRead s))
  | poll (iv : Nat) (hp : s.prog[s.upc]? = some (.b iv)) (hb : nextBusy s = .high) (ht : timedOut s = false) :
      SeqEffect s (barrierPoll iv (busyRead s))
  | timeout (iv : Nat) (hp : s.prog[s.upc]? = some (.b iv)) (hb : nextBusy s = .high) (ht : timedOut s = true) :
      SeqEffect s (endRefresh .panelUnresponsive (busyRead s))
  | finish (hp : s.prog[s.upc]? = none) (hu : s.upc = s.prog.length) : SeqEffect s (endRefresh .ok s)

theorem barrier_cases {iv : Nat} {s t : State} (hp : s.prog[s.upc]? = some (.b iv)) (h : barrier iv s = .next t) :
    SeqEffect s t := by
  unfold barrier at h
  split at h
  · cases h
  · cases hb : nextBusy s with
    | low => rw [hb] at h; cases h; exact .pass iv hp hb
    | high =>
      rw [hb] at h
      dsimp only at h
      split at h
      · rename_i ht; cases h; exact .timeout iv hp hb ht
      · rename_i ht; cases h; exact .poll iv hp hb (by simpa using ht)

theorem sequencerStep_cases {s t : State} (h : sequencerStep s = .next t) : SeqEffect s t := by
  unfold sequencerStep at h
  split at h
  · rename_i m hp
    cases m with
    | w p l =>
      unfold microStep pinWrite at h
      dsimp only at h
      split at h
      · rename_i hd
        cases h
        exact .straight (.w p l) hp rfl (by rintro p' l' he; cases he; exact hd)
      · cases h
    | d ms => cases h; exact .straight (.d ms) hp rfl (by rintro p l he; cases he)
    | b iv => exact barrier_cases hp h
  · rename_i hp
    split at h
    · rename_i hu; cases h; exact .finish hp hu
    · cases h

/-! ### A step -/

/-- What a step can do when no frame is issued from outside. -/
inductive StepEffect (s : State) : State → Prop where
  | word (w : HostWord) (rest : List Input) (hin : s.inputs = .word w :: rest) (t : State)
      (h : HostEffect (decodeHost w) { s with inputs := rest } t) : StepEffect s t
  | power (rest : List Input) (hin : s.inputs = .powerCycle :: rest) :
      StepEffect s (powerOn { s with inputs := rest })
  | sequencer (hin : s.inputs = [] ∨ s.inputs.head? = some .quiet) (hl : s.life = .refreshing) (t : State)
      (h : SeqEffect { s with inputs := s.inputs.tail } t) : StepEffect s t
  | idle (hin : s.inputs = [] ∨ s.inputs.head? = some .quiet) (hl : s.life ≠ .refreshing) :
      StepEffect s { s with inputs := s.inputs.tail }

theorem step_word {s : State} {w : HostWord} {rest : List Input} (hi : s.issue = none)
    (hin : s.inputs = .word w :: rest) : step s = exec (decodeHost w) { s with inputs := rest } := by
  cases s; cases hi; cases hin; rfl

theorem step_power {s : State} {rest : List Input} (hi : s.issue = none)
    (hin : s.inputs = .powerCycle :: rest) : step s = .next (powerOn { s with inputs := rest }) := by
  cases s; cases hi; cases hin; rfl

theorem step_quiet {s : State} (hi : s.issue = none) (hin : s.inputs = [] ∨ s.inputs.head? = some .quiet) :
    step s = advance { s with inputs := s.inputs.tail } := by
  cases hs : s.inputs with
  | nil => cases s; cases hi; cases hs; rfl
  | cons x rest =>
    rw [hs] at hin
    have : x = .quiet := by simpa using hin
    cases s; cases hi; cases hs; subst this; rfl

theorem step_issue {s : State} {bytes : List Byte} {i : Instr} (hi : s.issue = some bytes)
    (hd : decodeWire bytes = .ok i) : step s = exec i { s with issue := none } := by
  cases s; cases hi
  simp only [step, hd]

theorem step_cases {s t : State} (hi : s.issue = none) (h : step s = .next t) : StepEffect s t := by
  have adv : (s.inputs = [] ∨ s.inputs.head? = some .quiet) → StepEffect s t := by
    intro hin
    rw [step_quiet hi hin, advance] at h
    split at h
    · rename_i hl; exact .sequencer hin hl t (sequencerStep_cases h)
    · rename_i hl; cases h; exact .idle hin hl
  cases hin : s.inputs with
  | nil => exact adv (.inl hin)
  | cons x rest =>
    cases x with
    | quiet => exact adv (.inr (by simp [hin]))
    | word w =>
      rw [step_word hi hin] at h
      exact .word w rest hin t (exec_host_cases (decodeHost_isHost w) h)
    | powerCycle =>
      rw [step_power hi hin] at h
      cases h; exact .power rest hin

/-- An issued frame is a wire command's transaction. -/
theorem step_issue_cases {s t : State} {bytes : List Byte} (hi : s.issue = some bytes) (h : step s = .next t) :
    ∃ i, i.isHost = false ∧ decodeWire bytes = .ok i ∧
      transact (frameOf i s.cfg s.fb) { s with issue := none } = .next t := by
  cases hd : decodeWire bytes with
  | ok i =>
    rw [step_issue hi hd, exec_wire i _ (decodeWire_isHost hd)] at h
    exact ⟨i, decodeWire_isHost hd, rfl, h⟩
  | error e => simp [step, hi, hd] at h

/-- A list of pin writes that goes through: every pin written is an output. -/
theorem emit_writes_next {ms : List MicroOp} {s t : State} (hm : ms.all MicroOp.isWrite = true)
    (h : emit ms s = .next t) : t = afterStraight ms s := by
  induction ms generalizing s with
  | nil => cases h; rfl
  | cons m rest ih =>
    simp only [List.all_cons, Bool.and_eq_true] at hm
    obtain ⟨p, l, rfl⟩ := (isWrite_iff m).mp hm.1
    rw [emit] at h
    unfold microStep pinWrite at h
    dsimp only at h
    split at h
    · rw [ih hm.2 h, afterStraight_cons (.w p l) rest s]; rfl
    · cases h

theorem transact_next {ms : List MicroOp} {s t : State} (hm : ms.all MicroOp.isWrite = true)
    (h : transact ms s = .next t) : s.life = .refreshing ∧ t = afterStraight ms s := by
  unfold transact at h
  split at h
  · rename_i hl; exact ⟨hl, emit_writes_next hm h⟩
  · cases h

/-! ### What a refresh does not depend on -/

/-- The state with another TRACE, FAULT and input list. -/
def reframe (s : State) (f : Bool) (tr : List Event) (ins : List Input) : State :=
  { s with faultHostConflict := f, trace := tr, inputs := ins }

/-- The sequencer reads neither FAULT nor TRACE nor the host port: it does the same over any of them, adds the same events,
and none of them is a HOST_CONFLICT response (43_sequencer.md R567). -/
theorem sequencerStep_reframe {s t : State} (h : sequencerStep s = .next t) :
    ∃ evs : List Event, t.trace = evs ++ s.trace ∧ (∀ e ∈ evs, e.isConflict = false) ∧
      t.faultHostConflict = s.faultHostConflict ∧ t.inputs = s.inputs ∧
      ∀ f tr ins, sequencerStep (reframe s f tr ins) = .next (reframe t f (evs ++ tr) ins) := by
  unfold sequencerStep at h
  split at h
  · rename_i m hp
    have hp' : ∀ f tr ins, sequencerStep (reframe s f tr ins) = microStep m (reframe s f tr ins) := fun f tr ins => by
      exact sequencerStep_at (s := reframe s f tr ins) hp
    cases m with
    | w p l =>
      unfold microStep pinWrite at h
      dsimp only at h
      split at h
      · rename_i hd
        cases h
        refine ⟨[.wr p l], rfl, by simp [Event.isConflict], rfl, rfl, ?_⟩
        intro f tr ins
        rw [hp', microStep, pinWrite, if_pos (by exact hd)]
        rfl
      · cases h
    | d ms =>
      cases h
      refine ⟨[.dly ms], rfl, by simp [Event.isConflict], rfl, rfl, ?_⟩
      intro f tr ins; rw [hp']; rfl
    | b iv =>
      unfold microStep barrier at h
      dsimp only at h
      split at h
      · cases h
      · rename_i hd
        have hn : ∀ f tr ins, nextBusy (reframe s f tr ins) = nextBusy s := fun _ _ _ => rfl
        cases hb : nextBusy s with
        | low =>
          rw [hb] at h; cases h
          refine ⟨[.rd .low], by simp [hb], by simp [Event.isConflict], rfl, rfl, ?_⟩
          intro f tr ins
          rw [hp', microStep, barrier, if_neg (by exact hd)]
          simp only [hn, hb]
          simp only [barrierPass, advanceUpc, busyRead, record, hn, hb]
          rfl
        | high =>
          rw [hb] at h
          dsimp only at h
          split at h
          · rename_i ht
            cases h
            refine ⟨[.resp opRefresh .panelUnresponsive 0, .rd .high], by simp [hb], by simp [Event.isConflict],
              rfl, rfl, ?_⟩
            intro f tr ins
            rw [hp', microStep, barrier, if_neg (by exact hd)]
            simp only [hn, hb]
            rw [if_pos (by exact ht)]
            simp only [endRefresh, respond, busyRead, record, hn, hb]
            rfl
          · rename_i ht
            cases h
            refine ⟨[.dly iv, .rd .high], by simp [hb], by simp [Event.isConflict], rfl, rfl, ?_⟩
            intro f tr ins
            rw [hp', microStep, barrier, if_neg (by exact hd)]
            simp only [hn, hb]
            rw [if_neg (by exact ht)]
            simp only [barrierPoll, delay, busyRead, record, hn, hb]
            rfl
  · rename_i hp
    split at h
    · rename_i hu
      cases h
      refine ⟨[.resp opRefresh .ok 0], rfl, by simp [Event.isConflict], rfl, rfl, ?_⟩
      intro f tr ins
      have : (reframe s f tr ins).prog[(reframe s f tr ins).upc]? = none := hp
      rw [sequencerStep, this]
      dsimp only
      rw [if_pos (by exact hu)]
      rfl
    · cases h

/-- During a refresh every host word is refused (60_exceptions.md R708). -/
theorem exec_word_refreshing (w : HostWord) {s : State} (hl : s.life = .refreshing) :
    ∃ op, exec (decodeHost w) s = .next (respond op .hostConflict 0 (setHostConflict s)) := by
  have ho := opOf_decodeHost w
  by_cases hr : ∃ w', decodeHost w = .reservedHostWord w'
  · obtain ⟨w', hw⟩ := hr
    rw [hw]
    exact ⟨w'.op, by simp only [exec, execReservedHostWord, if_pos hl]; rfl⟩
  · obtain ⟨body, hb⟩ := exec_dispatch ho (fun w' h => hr ⟨w', h⟩)
    exact ⟨_, by rw [hb, dispatch_refreshing _ _ hl]; rfl⟩

end Sys2Proof.Machine
end

