-- ==== Sys2Proof/Tests/Slice0.lean ====
section
/-! SUPPORT. Tests: ill-formed terms, words written out from the spec's encodings, one step of each instruction with the
results of 95_test_vectors.md, and a witness for the hypotheses of every statement. -/

namespace Sys2Proof.Tests

open Sys2Proof Sys2Proof.Machine

/-! ### States -/

/-- CFG of the small geometry of 95_test_vectors.md section 2.5. -/
def cfg2x16 : Cfg := ⟨2, 16, 2, 0x00, none, 4736⟩

/-- CFG of the panel, 296 × 128. -/
def cfgTarget : Cfg := ⟨296, 128, 16, 0x00, none, 4736⟩

/-- Before INIT, with 4736 bytes to allocate. -/
def unbound : State := { State.reset with cfg := ⟨0, 0, 0, 0x00, none, 4736⟩ }

/-- After INIT with a given CFG and FB: the pins claimed, TRACE as INIT leaves it (section 2.3). -/
def ready (c : Cfg) (m : Memory) : State :=
  { unbound with
    cfg := c, life := .ready, fb := m, dir := Dirs.claimed, draws := 1
    trace := [.resp opInit .ok 0, .cfg .busy .input, .cfg (.out .rst) .output, .cfg (.out .dc) .output,
      .cfg (.out .cs) .output, .cfg (.out .clk) .output, .cfg (.out .din) .output] }

/-- The small FB of section 2.5. -/
def fb4 : Memory := [(0, 0x01), (1, 0x80), (2, 0xFF), (3, 0x0F)]

def ready4 : State := ready cfg2x16 fb4

/-- A refresh whose program is `ms`, BUSY reading as `busy`. -/
def running (ms : List MicroOp) (busy : List Level) : State :=
  { ready4 with life := .refreshing, prog := ms, busyIn := busy }

def released : State := { unbound with cfg := cfg2x16, life := .released, fb := fb4 }

/-- The response a step ended with. -/
def lastResp (r : Result) : Option (OpCode × Status × Half) :=
  match r with
  | .next s => match s.trace with
    | .resp op st v :: _ => some (op, st, v)
    | _ => none
  | .fault _ => none
  | .refused _ => none

/-- A field of the next state. -/
def after {α : Type} (f : State → α) (r : Result) : Option α :=
  match r with
  | .next s => some (f s)
  | .fault _ => none
  | .refused _ => none

/-- The decoder reads this instruction. -/
def decodesTo (e : Encoded) (i : Instr) : Bool :=
  match decode e with
  | .ok j => j == i
  | .error _ => false

/-- The decoder rejects under this name. -/
def rejectedAs (e : Encoded) (r : Reject) : Bool :=
  match decode e with
  | .ok _ => false
  | .error q => q == r

/-- The state takes this word next. -/
def given (w : HostWord) (s : State) : State := { s with inputs := [.word w] }

/-! ### Ill-formed instructions are refused -/

theorem test_wellFormed_refuses_init_word : Instr.wellFormed (.reservedHostWord 0x0080012801) = false := by decide
theorem test_wellFormed_refuses_teardown_word : Instr.wellFormed (.reservedHostWord 0x0000000008) = false := by decide
theorem test_wellFormed_refuses_dark_clear_word : Instr.wellFormed (.reservedHostWord 0x0000000512) = false := by decide
theorem test_wellFormed_takes_reserved_words :
    Instr.wellFormed (.reservedHostWord 0x0000000000) = true ∧ Instr.wellFormed (.reservedHostWord 0x0000000009) = true ∧
    Instr.wellFormed (.reservedHostWord 0x000200010F) = true ∧ Instr.wellFormed (.reservedHostWord 0x0000000022) = true := by
  decide

/-! ### Words written out: Y, X, RSV, DARK, OP (30_encoding.md R301, R303) -/

theorem test_decode_init :
    decodesTo (.host 0b0000000010000000000000010010100000000001) (.init 296 128) = true := by decide
theorem test_decode_clear :
    decodesTo (.host 0b0000000000000000000000000000000000000010) .clear = true := by decide
theorem test_decode_clear_unused_fields :
    decodesTo (.host 0b0000000000000000000000000000010100010010) .clear = true := by decide
theorem test_decode_setpx :
    decodesTo (.host 0b0000000001111111000000010010011100010011) (.setpx 295 127 true) = true := by decide
theorem test_decode_getpx :
    decodesTo (.host 0b0000000000001001000000000000000100000100) (.getpx 1 9) = true := by decide
theorem test_decode_width :
    decodesTo (.host 0b0000000000000000000000000000000000000101) .width = true := by decide
theorem test_decode_height :
    decodesTo (.host 0b0000000000000000000000000000000000000110) .height = true := by decide
theorem test_decode_refresh :
    decodesTo (.host 0b0000000000000000000000000000000000000111) .refresh = true := by decide
theorem test_decode_teardown :
    decodesTo (.host 0b0000000000000000000000000000000000001000) .teardown = true := by decide
theorem test_decode_reserved_op :
    decodesTo (.host 0b0000000000000010000000000000000100001111) (.reservedHostWord 0x000200010F) = true := by decide
theorem test_decode_reserved_rsv :
    decodesTo (.host 0b0000000000000000000000000000000000100010) (.reservedHostWord 0x0000000022) = true := by decide

/-! ### Wire frames written out: opcode byte, payload bytes (R306, R308) -/

theorem test_decode_drvOutCtrl :
    decodesTo (.wire [0b00000001, 0b00100111, 0b00000001, 0b00000000]) .drvOutCtrl = true := by decide
theorem test_decode_deepSleep : decodesTo (.wire [0b00010000, 0b00000001]) .deepSleep = true := by decide
theorem test_decode_dataEntry : decodesTo (.wire [0b00010001, 0b00000001]) .dataEntry = true := by decide
theorem test_decode_swReset : decodesTo (.wire [0b00010010]) .swReset = true := by decide
theorem test_decode_masterAct : decodesTo (.wire [0b00100000]) .masterAct = true := by decide
theorem test_decode_updSeq_load : decodesTo (.wire [0b00100010, 0b10110001]) (.updSeq .loadLut) = true := by decide
theorem test_decode_updSeq_full : decodesTo (.wire [0b00100010, 0b11000111]) (.updSeq .fullRefresh) = true := by decide
theorem test_decode_writeRamPri : decodesTo (.wire [0b00100100]) .writeRamPri = true := by decide
theorem test_decode_writeRamSec : decodesTo (.wire [0b00100110]) .writeRamSec = true := by decide
theorem test_decode_ramXWin : decodesTo (.wire [0b01000100, 0b00000000, 0b00011000]) .ramXWin = true := by decide
theorem test_decode_ramYWin :
    decodesTo (.wire [0b01000101, 0b00100111, 0b00000001, 0b00000000, 0b00000000]) .ramYWin = true := by decide
theorem test_decode_ramXPtr : decodesTo (.wire [0b01001110, 0b00000000]) .ramXPtr = true := by decide
theorem test_decode_ramYPtr : decodesTo (.wire [0b01001111, 0b00100111, 0b00000001]) .ramYPtr = true := by decide
theorem test_decode_rejects_by_name :
    rejectedAs (.wire []) .emptyFrame = true ∧ rejectedAs (.wire [0x02]) (.noSuchOpcode 0x02) = true ∧
    rejectedAs (.wire [0x12, 0x00]) (.payloadMismatch 0x12) = true ∧
    rejectedAs (.wire [0x22, 0xB2]) (.payloadMismatch 0x22) = true := by decide

/-! ### The table's words, decoded and run first after reset -/

/-- Each row's word, with what it decodes to. -/
def tableRows : List (Nat × Nat × Instr) :=
  [(40, 0x01, .init 0 0), (40, 0x02, .clear), (40, 0x03, .setpx 0 0 false), (40, 0x04, .getpx 0 0), (40, 0x05, .width),
   (40, 0x06, .height), (40, 0x07, .refresh), (40, 0x08, .teardown), (40, 0x00, .reservedHostWord 0),
   (8, 0x01, .drvOutCtrl), (8, 0x10, .deepSleep), (8, 0x11, .dataEntry), (8, 0x12, .swReset), (8, 0x20, .masterAct),
   (8, 0x22, .updSeq .loadLut)] ++
  [(8, 0x24, .writeRamPri), (8, 0x26, .writeRamSec), (8, 0x44, .ramXWin), (8, 0x45, .ramYWin), (8, 0x4E, .ramXPtr),
   (8, 0x4F, .ramYPtr)]

theorem test_table_rows_decode :
    tableRows.all (fun r => decodeTableWord r.1 r.2.1 == some r.2.2) = true := by decide

theorem test_table_rows_step :
    tableRows.all (fun r => (after State.life (step (State.reset.withFetchWord r.1 r.2.1))).isSome) = true := by decide

/-! ### One step of each host operation (95_test_vectors.md sections 2.2 to 2.5) -/

theorem test_init_target :
    lastResp (step (given 0x0080012801 unbound)) = some (opInit, .ok, 0) ∧
    after (fun s => (s.cfg.w, s.cfg.h, s.cfg.hb, s.life, s.dir)) (step (given 0x0080012801 unbound)) =
      some (296, 128, 16, .ready, Dirs.claimed) := by decide
theorem test_init_geometry :
    [(1, 8), (28, 168), (296, 128)].all (fun g => lastResp (exec (.init g.1 g.2) unbound) == some (opInit, .ok, 0)) ∧
    [(1, 176), (296, 12), (296, 0), (0, 128), (65535, 8)].all
      (fun g => lastResp (exec (.init g.1 g.2) unbound) == some (opInit, .invalidGeometry, 0)) := by decide
theorem test_clear :
    after State.fb (step (given 0x0000000512 ready4)) = some [] ∧
    lastResp (step (given 0x0000000002 unbound)) = some (opClear, .wrongState, 0) := by decide
theorem test_setpx :
    after State.fb (exec (.setpx 1 9 true) (ready cfgTarget [])) = some [(17, 0x02)] ∧
    after State.fb (exec (.setpx 295 127 true) (ready cfgTarget [])) = some [(4735, 0x80)] ∧
    after State.fb (exec (.setpx 1 9 false) (ready cfgTarget [(17, 0xFF)])) = some [(17, 0xFD)] ∧
    after State.fb (exec (.setpx 0 8 true) (ready cfgTarget [(0, 0x01), (17, 0x02)])) =
      some [(0, 0x01), (1, 0x01), (17, 0x02)] := by decide
theorem test_setpx_outside :
    [(296, 0), (0, 128), (65535, 65535)].all
      (fun p => lastResp (exec (.setpx p.1 p.2 true) (ready cfgTarget [])) == some (opSetpx, .outOfRange, 0)) := by decide
theorem test_getpx :
    lastResp (exec (.getpx 1 9) (ready cfgTarget [(17, 0x02)])) = some (opGetpx, .ok, 1) ∧
    lastResp (exec (.getpx 1 8) (ready cfgTarget [(17, 0x02)])) = some (opGetpx, .ok, 0) ∧
    lastResp (exec (.getpx 295 127) (ready cfgTarget [(4735, 0x80)])) = some (opGetpx, .ok, 1) ∧
    lastResp (exec (.getpx 296 127) (ready cfgTarget [])) = some (opGetpx, .outOfRange, 0) := by decide
theorem test_width : lastResp (exec .width (ready cfgTarget [])) = some (opWidth, .ok, 296) := by decide
theorem test_height : lastResp (exec .height (ready cfgTarget [])) = some (opHeight, .ok, 128) := by decide
theorem test_refresh_starts :
    after (fun s => (s.life, s.upc, s.prog.take 6, s.trace == ready4.trace)) (exec .refresh ready4) =
      some (.refreshing, 0, idle ++ [.w .rst .high, .w .rst .low], true) := by decide
theorem test_teardown :
    after (fun s => (s.life, s.dir, s.fb)) (exec .teardown ready4) = some (.released, Dirs.unclaimed, fb4) ∧
    lastResp (exec .teardown released) = some (opTeardown, .wrongState, 0) := by decide
theorem test_reserved_word :
    lastResp (step (given 0x000000000A released)) = some (0xA, .illegalOp, 0) ∧
    lastResp (step (given 0x0000000022 ready4)) = some (opClear, .illegalOp, 0) := by decide
theorem test_conflict_comes_first :
    lastResp (step (given 0x0000000000 (running [] []))) = some (0x0, .hostConflict, 0) ∧
    after State.faultHostConflict (step (given 0x0000000004 (running [] []))) = some true := by decide
theorem test_power_cycle :
    after (fun s => (s.life, s.fb, s.dir, s.trace)) (step { ready4 with inputs := [.powerCycle] }) =
      some (.unbound, [], Dirs.unclaimed, []) := by decide

/-! ### Row stream, transforms and frames (sections 2.5 to 2.7) -/

theorem test_row_stream :
    streamRows cfg2x16 fb4 = [0x00, 0x01, 0x80] ++ List.replicate 20 0x00 ++ [0xFF, 0x0F] ++ List.replicate 19 0x00 := by
  decide
theorem test_wire_transform :
    [(0x12, 0xB7), (0x01, 0x7F), (0x80, 0xFE), (0xFF, 0x00), (0x0F, 0x0F), (0x81, 0x7E), (0xAA, 0xAA)].all
      (fun p => wireOf p.1 == p.2) := by decide
theorem test_msb_levels :
    levelsMsb 0x12 = [.low, .low, .low, .high, .low, .low, .high, .low] ∧
    levelsInv 0x12 = [.high, .low, .high, .high, .low, .high, .high, .high] := by decide
theorem test_sw_reset_frame :
    send 0x12 [] = [.w .cs .low, .w .dc .low,
      .w .din .low, .w .clk .low, .w .clk .high, .w .din .low, .w .clk .low, .w .clk .high,
      .w .din .low, .w .clk .low, .w .clk .high, .w .din .high, .w .clk .low, .w .clk .high,
      .w .din .low, .w .clk .low, .w .clk .high, .w .din .low, .w .clk .low, .w .clk .high,
      .w .din .high, .w .clk .low, .w .clk .high, .w .din .low, .w .clk .low, .w .clk .high, .w .cs .high] := by decide

/-- The wire command of a frame, run in a refresh whose program is that frame, decodes back to its bytes (R461). -/
def decodesBack (i : Instr) (bytes : List Byte) : Bool :=
  match exec i (running [] []) with
  | .next s => transactionLog s.trace == [bytes.zipIdx.map fun b => ⟨if b.2 = 0 then .command else .data, some b.1⟩]
  | .fault _ => false
  | .refused _ => false

set_option maxRecDepth 4000 in
theorem test_exec_drvOutCtrl : decodesBack .drvOutCtrl [0x01, 0x27, 0x01, 0x00] = true := by decide
theorem test_exec_deepSleep : decodesBack .deepSleep [0x10, 0x01] = true := by decide
theorem test_exec_dataEntry : decodesBack .dataEntry [0x11, 0x01] = true := by decide
theorem test_exec_swReset : decodesBack .swReset [0x12] = true := by decide
theorem test_exec_masterAct : decodesBack .masterAct [0x20] = true := by decide
theorem test_exec_updSeq :
    decodesBack (.updSeq .loadLut) [0x22, 0xB1] = true ∧ decodesBack (.updSeq .fullRefresh) [0x22, 0xC7] = true := by decide
theorem test_exec_ramXWin : decodesBack .ramXWin [0x44, 0x00, 0x18] = true := by decide
set_option maxRecDepth 4000 in
theorem test_exec_ramYWin : decodesBack .ramYWin [0x45, 0x27, 0x01, 0x00, 0x00] = true := by decide
theorem test_exec_ramXPtr : decodesBack .ramXPtr [0x4E, 0x00] = true := by decide
theorem test_exec_ramYPtr : decodesBack .ramYPtr [0x4F, 0x27, 0x01] = true := by decide

/-- One column of one byte, 0xAA: the stream is padding, 0xAA, padding ×20; the padding reads 0xFF on the wire. -/
def decodesColumn (i : Instr) (op : Byte) : Bool :=
  match exec i { running [] [] with cfg := ⟨1, 8, 1, 0x00, none, 4736⟩, fb := [(0, 0xAA)] } with
  | .next s => transactionLog s.trace ==
      [⟨.command, some op⟩ :: ([0xFF, 0xAA] ++ List.replicate 20 0xFF : List Byte).map fun b => ⟨.data, some b⟩]
  | .fault _ => false
  | .refused _ => false

set_option maxRecDepth 20000 in
theorem test_exec_writeRamPri : decodesColumn .writeRamPri 0x24 = true := by decide
set_option maxRecDepth 20000 in
theorem test_exec_writeRamSec : decodesColumn .writeRamSec 0x26 = true := by decide

/-! ### The barrier (section 2.8) -/

/-- A barrier with a timeout and an ELAPSED. -/
def polling (iv : Nat) (T : Option Nat) (elapsed : Nat) (busy : List Level) : State :=
  { running [.b iv] busy with cfg := { cfg2x16 with busyTimeout := T }, elapsed := elapsed }

theorem test_barrier_low_passes :
    after (fun s => (s.upc, s.elapsed, s.life)) (step (polling 50 (some 100) 100 [.low])) = some (1, 0, .refreshing) := by
  decide
theorem test_barrier_times_out_at_T :
    lastResp (step (polling 50 (some 100) 100 [.high])) = some (opRefresh, .panelUnresponsive, 0) ∧
    lastResp (step (polling 10 (some 0) 0 [.high])) = some (opRefresh, .panelUnresponsive, 0) := by decide
theorem test_barrier_polls_before_T :
    after (fun s => (s.upc, s.elapsed, s.trace.head?)) (step (polling 50 (some 100) 50 [.high])) =
      some (0, 100, some (.dly 50)) := by decide

/-! ### States with the invariants -/

theorem fits2x16 : GeometryFits cfg2x16 := ⟨by decide, by decide⟩
theorem fitsTarget : GeometryFits cfgTarget := ⟨by decide, by decide⟩

theorem inv_ready4 : Machine.Inv ready4 where
  noIssue := rfl
  capacity := Nat.le_refl _
  unbuilt := fun h => by cases h
  geometry := fun _ => fits2x16
  fbCanonical := by decide
  fbBounded := by decide
  directions := rfl
  levels := fun h => by cases h
  atRest := fun _ => ⟨rfl, rfl, rfl⟩
  running := fun h => by cases h
  waiting := fun h => absurd rfl h

theorem accounts_ready4 : TraceAccounts ready4 := ⟨by decide, by decide, by decide⟩
theorem closed_ready4 : FramesClosed ready4 := ⟨fun _ => by decide, fun h => by cases h⟩

/-- A refresh just accepted, with a timeout of 100 ms. -/
def started : State := startRefresh { ready4 with cfg := { cfg2x16 with busyTimeout := some 100 } }

theorem inv_started : Machine.Inv started where
  noIssue := rfl
  capacity := Nat.le_refl _
  unbuilt := fun h => by cases h
  geometry := fun _ => ⟨by decide, by decide⟩
  fbCanonical := by decide
  fbBounded := by decide
  directions := rfl
  levels := fun h => by cases h
  atRest := fun h => absurd rfl h
  running := fun _ => ⟨rfl, Nat.zero_le _⟩
  waiting := fun h => absurd rfl h

/-! ### A witness for the hypotheses of each statement -/

theorem witness_DecodeOfEncodeIsTheInstruction :
    Instr.wellFormed (.setpx 0xFFFF 0xFFFF true) = true ∧ Instr.wellFormed (.reservedHostWord 0xFFFFFFFFFF) = true ∧
    Instr.wellFormed (.updSeq .fullRefresh) = true := by decide

theorem witness_ReservedWordsAndUnusedFields :
    HostWord.op 0x0000000010 = 0 ∧ 9 ≤ (HostWord.op 0x0000000009).toNat ∧ HostWord.rsv 0x0000000021 ≠ 0 ∧
    ¬(HostWord.op 0x0000000008 = 0 ∨ 9 ≤ (HostWord.op 0x0000000008).toNat ∨ HostWord.rsv 0x0000000008 ≠ 0) ∧
    ready4.life ≠ .refreshing ∧ (running [] []).life = .refreshing ∧
    (HostWord.rsv 0x0000000002 = 0 ∧ HostWord.rsv 0x0000000512 = 0 ∧
      HostWord.op 0x0000000512 = HostWord.op 0x0000000002) ∧
    (HostWord.rsv 0x0080012811 = 0 ∧ HostWord.op 0x0080012811 = 1 ∧
      HostWord.x 0x0080012811 = HostWord.x 0x0080012801 ∧ HostWord.y 0x0080012811 = HostWord.y 0x0080012801) := by decide

theorem witness_StepRunsTheDecodedInstruction :
    ((given 0x0080012801 unbound).issue = none ∧ (given 0x0080012801 unbound).inputs = .word 0x0080012801 :: [] ∧
      decodesTo (.host 0x0080012801) (.init 296 128) = true) ∧
    ({ running [] [] with issue := some [0x12] }.issue = some [0x12] ∧ decodesTo (.wire [0x12]) .swReset = true) ∧
    ((running [.d 10] []).issue = none ∧ (running [.d 10] []).inputs = [] ∧ (running [.d 10] []).life = .refreshing) ∧
    ({ ready4 with inputs := [.quiet] }.inputs.head? = some .quiet ∧ ready4.life ≠ .refreshing) := by decide

theorem witness_SequencerRunsAWireCommand :
    Instr.swReset.isHost = false ∧ (running (.d 10 :: send 0x12 [] ++ [.b 10]) []).life = .refreshing ∧
    (running (.d 10 :: send 0x12 [] ++ [.b 10]) []).dir = Dirs.claimed ∧
    (running (.d 10 :: send 0x12 [] ++ [.b 10]) []).issue = none ∧
    (running (.d 10 :: send 0x12 [] ++ [.b 10]) []).inputs = [] ∧
    (running (.d 10 :: send 0x12 [] ++ [.b 10]) []).prog.drop 1 = frameOf .swReset cfg2x16 fb4 ++ [.b 10] := by decide

theorem witness_InitConstructsOrRefuses :
    unbound.life = .unbound ∧
    ((296 : Half) ≠ 0 ∧ (128 : Half) ≠ 0 ∧ (128 : Half).toNat % 8 = 0 ∧
      Config.target.offsetY + (128 : Half).toNat / 8 ≤ Config.target.virtualY ∧
      (296 : Half).toNat * ((128 : Half).toNat / 8) ≤ unbound.cfg.fbCapacity) ∧
    ((1 : Half) ≠ 0 ∧ (168 : Half).toNat % 8 = 0 ∧
      Config.target.offsetY + (168 : Half).toNat / 8 ≤ Config.target.virtualY) ∧
    ¬Config.target.offsetY + (176 : Half).toNat / 8 ≤ Config.target.virtualY ∧ ¬(12 : Half).toNat % 8 = 0 ∧
    ¬(297 : Half).toNat * ((128 : Half).toNat / 8) ≤ unbound.cfg.fbCapacity := by decide

theorem witness_InitAcceptsHeightsUpTo168 :
    unbound.life = .unbound ∧ (1 : Half) ≠ 0 ∧ (1 : Half).toNat * ((168 : Half).toNat / 8) ≤ unbound.cfg.fbCapacity ∧
    (1 : Half).toNat * ((176 : Half).toNat / 8) ≤ unbound.cfg.fbCapacity := by decide

/-- WIDTH, HEIGHT, REFRESH, TEARDOWN and CLEAR ask for READY. -/
theorem witness_WidthAndHeightRespondTheGeometry : ready4.life = .ready := by decide
theorem witness_RefreshStartsTheProgram : ready4.life = .ready := by decide
theorem witness_TeardownReleasesThePins : ready4.life = .ready := by decide
theorem witness_ClearMakesEveryByteWhite :
    ready4.life = .ready ∧ (after State.life (exec .clear { ready4 with fb := [] })).isSome = true := by decide
theorem witness_ClearIsTheLoopOfByteWrites : ∀ c ∈ ready4.fb, c.1 < fbSize ready4.cfg := by decide

theorem witness_SetpxSetsExactlyOnePixel :
    ready4.life = .ready ∧ GeometryFits ready4.cfg ∧
    ((1 : Half).toNat < ready4.cfg.w.toNat ∧ (15 : Half).toNat < ready4.cfg.h.toNat) ∧
    ¬((2 : Half).toNat < ready4.cfg.w.toNat ∧ (15 : Half).toNat < ready4.cfg.h.toNat) ∧
    ¬((1 : Half).toNat < ready4.cfg.w.toNat ∧ (16 : Half).toNat < ready4.cfg.h.toNat) :=
  ⟨rfl, fits2x16, by decide, by decide, by decide⟩
theorem witness_GetpxReadsExactlyOnePixel :
    ready4.life = .ready ∧ GeometryFits ready4.cfg ∧
    ((1 : Half).toNat < ready4.cfg.w.toNat ∧ (15 : Half).toNat < ready4.cfg.h.toNat) ∧
    ¬((2 : Half).toNat < ready4.cfg.w.toNat ∧ (15 : Half).toNat < ready4.cfg.h.toNat) :=
  ⟨rfl, fits2x16, by decide, by decide⟩

theorem witness_PixelLaws :
    ready4.life = .ready ∧ GeometryFits ready4.cfg ∧ inRange ready4.cfg 1 9 = true ∧ inRange ready4.cfg 1 8 = true ∧
    (∃ t u, exec (.setpx 1 9 false) ready4 = .next t ∧ exec (.getpx 1 9) t = .next u) ∧
    (∃ t u, exec (.setpx 1 9 false) ready4 = .next t ∧ exec (.getpx 1 8) t = .next u) ∧
    exec (.getpx 1 8) ready4 = .next { ready4 with trace := .resp opGetpx .ok 1 :: ready4.trace } ∧
    ∃ t u, exec .clear ready4 = .next t ∧ exec (.getpx 1 8) t = .next u :=
  ⟨rfl, fits2x16, by decide, by decide, ⟨_, _, rfl, rfl⟩, ⟨_, _, rfl, rfl⟩, rfl, ⟨_, _, rfl, rfl⟩⟩

theorem witness_SetpxIsIdempotent :
    ∃ t u, exec (.setpx 1 9 false) ready4 = .next t ∧ exec (.setpx 1 9 false) t = .next u := ⟨_, _, rfl, rfl⟩

theorem witness_LifecycleRefusals :
    (opOf .clear = some opClear ∧ unbound.life ≠ .refreshing ∧ opClear ≠ opInit ∧ unbound.life ≠ .ready) ∧
    (opOf (.init 296 128) = some opInit ∧ ready4.life ≠ .refreshing ∧ ready4.life ≠ .unbound) ∧
    (opOf .teardown = some opTeardown ∧ released.life ≠ .refreshing ∧ opTeardown ≠ opInit ∧ released.life ≠ .ready) := by
  decide

theorem witness_WordsDuringARefreshAreRefused :
    opOf (.reservedHostWord 0) = some 0 ∧ opOf .refresh = some opRefresh ∧ (running [] []).life = .refreshing := by decide

theorem witness_ConflictingWordsDoNotDisturbARefresh :
    (running [.w .din .high, .d 10, .w .din .low] []).issue = none ∧
    (∀ x ∈ [Input.word 0x13, .quiet, .word 0x00, .quiet], x ≠ .powerCycle) ∧
    (∃ r, runs 0 (running [.w .din .high, .d 10, .w .din .low] []) = .next r ∧ r.life = .refreshing) ∧
    (∃ r, runs 1 (running [.w .din .high, .d 10, .w .din .low] []) = .next r ∧ r.life = .refreshing) ∧
    ([Input.word 0x13, .quiet, .word 0x00, .quiet].filter (· == .quiet)).length = 2 ∧
    (∃ t, runs 2 (running [.w .din .high, .d 10, .w .din .low] []) = .next t ∧ t.life = .refreshing) ∧
    -- the same words over a refresh of one micro-op: the second undisturbed step ends it
    (∃ r, runs 1 (running [.d 10] []) = .next r ∧ r.life = .refreshing) ∧
    (∃ t, runs 2 (running [.d 10] []) = .next t ∧ t.life = .ready ∧ t.life ≠ .refreshing) ∧
    [Input.word 0x13, .quiet, .word 0x00, .quiet].getLast? = some .quiet :=
  ⟨rfl, by decide, ⟨_, rfl, rfl⟩, ⟨_, rfl, rfl⟩, by decide, ⟨_, rfl, rfl⟩, ⟨_, rfl, rfl⟩, ⟨_, rfl, rfl, by decide⟩, rfl⟩

theorem witness_RefusalsArePrecise :
    (Instr.getpx 2 0).isHost = true ∧
    (∃ t, exec (.getpx 2 0) ready4 = .next t ∧ t.trace = .resp opGetpx .outOfRange 0 :: ready4.trace) ∧
    ∃ t, exec .clear (running [] []) = .next t ∧ t.trace = .resp opClear .hostConflict 0 :: (running [] []).trace :=
  ⟨rfl, ⟨_, rfl, rfl⟩, ⟨_, rfl, rfl⟩⟩

theorem witness_PinWriteAndDelayMicroOps :
    (running [.w .rst .low] []).dir = Dirs.claimed ∧ (running [.w .rst .low] []).prog[0]? = some (.w .rst .low) ∧
    (running [.d 10] []).prog[0]? = some (.d 10) := by decide

theorem witness_ReadyBarrierReadsThenDecides :
    (polling 50 (some 100) 100 [.low]).dir = Dirs.claimed ∧
    (polling 50 (some 100) 100 [.low]).prog[0]? = some (.b 50) ∧
    (polling 50 (some 100) 100 [.low]).busyIn = .low :: [] ∧
    ((polling 50 (some 100) 100 [.high]).cfg.busyTimeout = some 100 ∧ 100 ≤ (polling 50 (some 100) 100 [.high]).elapsed) ∧
    (polling 50 (some 100) 99 [.high]).elapsed < 100 ∧ (polling 50 none 100 [.high]).cfg.busyTimeout = none := by decide

theorem witness_UnscheduledBusyReadsAreFree :
    (polling 50 none 0 []).dir = Dirs.claimed ∧ (polling 50 none 0 []).prog[0]? = some (.b 50) ∧
    (polling 50 none 0 []).busyIn = [] ∧ (polling 50 none 0 []).cfg.busyTimeout = none := by decide

/-- The row "50, 100, H H L: passes" of section 2.8, and a barrier without a timeout. -/
theorem witness_BarrierPassesAfterHighReads :
    (polling 50 (some 100) 0 [.high, .high, .low]).issue = none ∧
    (polling 50 (some 100) 0 [.high, .high, .low]).inputs = [] ∧
    (polling 50 (some 100) 0 [.high, .high, .low]).life = .refreshing ∧
    (polling 50 (some 100) 0 [.high, .high, .low]).dir = Dirs.claimed ∧
    (polling 50 (some 100) 0 [.high, .high, .low]).prog[0]? = some (.b 50) ∧
    (∀ T, (polling 50 (some 100) 0 [.high, .high, .low]).cfg.busyTimeout = some T → ∀ k, k < 2 → 0 + k * 50 < T) ∧
    (∀ T, (polling 10 none 0 [.high, .high, .low]).cfg.busyTimeout = some T → ∀ k, k < 2 → 0 + k * 10 < T) ∧
    (polling 50 (some 100) 0 [.high, .high, .low]).busyIn = List.replicate 2 .high ++ .low :: [] :=
  ⟨rfl, rfl, rfl, rfl, rfl, fun T h => (by cases h; decide), fun T h => (by cases h), rfl⟩

theorem witness_BarrierTimesOut :
    (polling 10 (some 25) 0 (List.replicate 4 .high)).life = .refreshing ∧
    (polling 10 (some 25) 0 (List.replicate 4 .high)).dir = Dirs.claimed ∧
    (polling 10 (some 25) 0 (List.replicate 4 .high)).cfg.busyTimeout = some 25 ∧
    (polling 10 (some 25) 0 (List.replicate 4 .high)).prog[0]? = some (.b 10) ∧
    (polling 10 (some 25) 0 (List.replicate 4 .high)).elapsed = 0 ∧
    (polling 10 (some 25) 0 (List.replicate 4 .high)).busyIn = List.replicate ((25 + 10 - 1) / 10 + 1) .high ++ [] := by
  decide

theorem witness_StuckBusyHangs :
    (polling 50 none 0 [.high, .high, .high]).life = .refreshing ∧
    (polling 50 none 0 [.high, .high, .high]).dir = Dirs.claimed ∧
    (polling 50 none 0 [.high, .high, .high]).cfg.busyTimeout = none ∧
    (polling 50 none 0 [.high, .high, .high]).prog[0]? = some (.b 50) ∧
    (polling 50 none 0 [.high, .high, .high]).busyIn = List.replicate 3 .high ++ [] := by decide

theorem witness_EndOfProgramRespondsOk : (running [] []).upc = (running [] []).prog.length := by decide

theorem witness_UpcStaysAdvancesByOneOrTheRefreshEnds :
    ((running [.d 10] []).issue = none ∧ (running [.d 10] []).life = .refreshing ∧
      (running [.d 10] []).inputs.head? ≠ some .powerCycle) ∧
    (∃ t, step (running [.d 10] []) = .next t ∧ t.upc = 1) ∧
    (∃ t, step (running [.b 50] [.high]) = .next t ∧ t.upc = 0) ∧
    ∃ t, step (running [] []) = .next t ∧ t.life = .ready :=
  ⟨by decide, ⟨_, rfl, rfl⟩, ⟨_, rfl, rfl⟩, ⟨_, rfl, rfl⟩⟩

/-- A REFRESH about to be accepted: BUSY HIGH once at the first barrier, twice at the third. -/
def aboutToRefresh : State :=
  { given 0x0000000007 ready4 with busyIn := [.high, .low, .low, .high, .high, .low, .low] }

/-- The same with a timeout of 100 ms, the third barrier's LOW read coming at ELAPSED = 100. -/
def aboutToRefreshInTime : State := { aboutToRefresh with cfg := { cfg2x16 with busyTimeout := some 100 } }

theorem witness_WholeRefreshEmitsTheTransactionLog :
    (Machine.Inv aboutToRefresh ∧ TraceAccounts aboutToRefresh ∧ FramesClosed aboutToRefresh ∧
      aboutToRefresh.life = .ready ∧ aboutToRefresh.cfg.busyTimeout = none ∧
      aboutToRefresh.inputs = [.word 0x0000000007] ∧ decodeHost 0x0000000007 = .refresh ∧
      aboutToRefresh.busyIn = List.replicate 1 .high ++ .low :: (List.replicate 0 .high ++ .low ::
        (List.replicate 2 .high ++ .low :: (List.replicate 0 .high ++ .low :: [])))) ∧
    (Machine.Inv aboutToRefreshInTime ∧ TraceAccounts aboutToRefreshInTime ∧ FramesClosed aboutToRefreshInTime ∧
      aboutToRefreshInTime.life = .ready ∧ aboutToRefreshInTime.inputs = [.word 0x0000000007] ∧
      aboutToRefreshInTime.busyIn = aboutToRefresh.busyIn ∧
      aboutToRefreshInTime.cfg.busyTimeout = some 100 ∧
      1 ≤ (100 + 9) / 10 ∧ 0 ≤ (100 + 9) / 10 ∧ 2 ≤ (100 + 49) / 50 ∧ 0 ≤ (100 + 49) / 50) :=
  ⟨⟨⟨inv_ready4.noIssue, inv_ready4.capacity, inv_ready4.unbuilt, inv_ready4.geometry, inv_ready4.fbCanonical,
      inv_ready4.fbBounded, inv_ready4.directions, inv_ready4.levels, inv_ready4.atRest, inv_ready4.running,
      inv_ready4.waiting⟩,
    ⟨accounts_ready4.levels, accounts_ready4.directions, accounts_ready4.conflict⟩,
    ⟨closed_ready4.outside, closed_ready4.inside⟩, rfl, rfl, rfl, by decide, by decide⟩,
   ⟨⟨inv_ready4.noIssue, inv_ready4.capacity, inv_ready4.unbuilt, inv_ready4.geometry, inv_ready4.fbCanonical,
      inv_ready4.fbBounded, inv_ready4.directions, inv_ready4.levels, inv_ready4.atRest, inv_ready4.running,
      inv_ready4.waiting⟩,
    ⟨accounts_ready4.levels, accounts_ready4.directions, accounts_ready4.conflict⟩,
    ⟨closed_ready4.outside, closed_ready4.inside⟩, rfl, rfl, rfl, rfl, by decide, by decide, by decide, by decide⟩⟩

theorem witness_RefreshWithTimeoutEnds :
    Machine.Inv started ∧ started.life = .refreshing ∧ started.upc = 0 ∧ started.inputs = [] ∧
    started.cfg.busyTimeout = some 100 := ⟨inv_started, rfl, rfl, rfl, rfl⟩

theorem witness_ReceiverReadsTheFrames : Receiver.start.lines.cs ≠ some .low := by decide
theorem witness_FramesBracketThemselves : Instr.ramYWin.isHost = false ∧ Instr.writeRamSec.isHost = false := by decide
theorem witness_BitCellsKeepTheirOrder : (frameOf .swReset cfg2x16 fb4)[3]? = some (.w .clk .low) := by decide
theorem witness_RowStreamLayout :
    1 < cfg2x16.w.toNat ∧ 0 < 22 ∧ 21 < 22 ∧ (1 ≤ 2 ∧ 2 < 1 + cfg2x16.hb.toNat) ∧ ¬(1 ≤ 3 ∧ 3 < 1 + cfg2x16.hb.toNat) := by
  decide

/-- The wire commands ask for a refresh with the pins claimed. -/
theorem witness_SendCommandsEmitTheirFrames :
    (running [] []).life = .refreshing ∧ (running [] []).dir = Dirs.claimed := by decide
theorem witness_FrameWritesEmitTheRowStream :
    (running [] []).life = .refreshing ∧ (running [] []).dir = Dirs.claimed ∧ (running [] []).cfg.w ≠ 0 ∧
    unbound.cfg.w = 0 := by decide
theorem witness_WireCommandsStopOutsideARefresh : Instr.swReset.isHost = false ∧ ready4.life ≠ .refreshing := by decide

theorem witness_StepKeepsTheInvariant :
    Machine.Inv started ∧ (∃ t, step started = .next t) ∧ Machine.Inv ready4 ∧ ∃ t, step ready4 = .next t :=
  ⟨inv_started, ⟨_, rfl⟩, inv_ready4, ⟨_, rfl⟩⟩
theorem witness_StepNeverStops : Machine.Inv started ∧ Machine.Inv ready4 := ⟨inv_started, inv_ready4⟩
theorem witness_StepKeepsTraceAccounts : TraceAccounts ready4 ∧ ∃ t, step (given 0x08 ready4) = .next t :=
  ⟨accounts_ready4, ⟨_, rfl⟩⟩
theorem witness_StepKeepsFramesClosed : Machine.Inv ready4 ∧ FramesClosed ready4 ∧ ∃ t, step ready4 = .next t :=
  ⟨inv_ready4, closed_ready4, ⟨_, rfl⟩⟩
theorem witness_ResponsesAreLawful :
    ((∀ e ∈ (given 0x04 ready4).trace, Event.lawful e = true) ∧ ∃ t, step (given 0x04 ready4) = .next t) ∧
    (∃ t, step (given 0x05 ready4) = .next t ∧ t.trace = .resp opWidth .ok 2 :: (given 0x05 ready4).trace) ∧
    ∃ t, step (given 0x06 ready4) = .next t ∧ t.trace = .resp opHeight .ok 16 :: (given 0x06 ready4).trace :=
  ⟨⟨by decide, ⟨_, rfl⟩⟩, ⟨_, rfl, rfl⟩, ⟨_, rfl, rfl⟩⟩

theorem witness_OneResponsePerHostWord :
    ((given 0x07 ready4).issue = none ∧ (given 0x07 ready4).inputs = .word 0x07 :: [] ∧
      ∃ t, step (given 0x07 ready4) = .next t) ∧
    ∃ t, step (given 0x07 unbound) = .next t := ⟨⟨rfl, rfl, ⟨_, rfl⟩⟩, ⟨_, rfl⟩⟩
theorem witness_FaultIsSticky :
    (∃ t, step { running [.d 10] [] with faultHostConflict := true } = .next t ∧
      { running [.d 10] [] with faultHostConflict := true }.inputs.head? ≠ some .powerCycle) ∧
    (running [] []).faultHostConflict = false ∧
    ∃ t, step (given 0x04 (running [] [])) = .next t ∧ t.faultHostConflict = true :=
  ⟨⟨_, rfl, by decide⟩, rfl, ⟨_, rfl, rfl⟩⟩
theorem witness_PinStateChangesOnlyThere :
    (∃ t, step (given 0x08 ready4) = .next t ∧ t.dir ≠ ready4.dir) ∧
    ∃ t, step (running [.w .rst .low] []) = .next t ∧ t.lvl ≠ (running [.w .rst .low] []).lvl :=
  ⟨⟨_, rfl, by decide⟩, ⟨_, rfl, by decide⟩⟩
theorem witness_FramebufferChangesOnlyThere :
    (∃ t, step (given 0x02 ready4) = .next t ∧ t.fb ≠ ready4.fb) ∧
    ∃ t, step { ready4 with inputs := [.powerCycle] } = .next t ∧ t.fb ≠ ready4.fb :=
  ⟨⟨_, rfl, by decide⟩, ⟨_, rfl, by decide⟩⟩
theorem witness_ConfigurationIsReadOnly :
    (∃ t, step (given 0x0080012801 unbound) = .next t ∧ t.cfg ≠ unbound.cfg) ∧
    ∃ t, step { ready4 with inputs := [.powerCycle] } = .next t ∧ t.cfg ≠ ready4.cfg :=
  ⟨⟨_, rfl, by decide⟩, ⟨_, rfl, by decide⟩⟩
theorem witness_ReleasedIsTerminal :
    (given 0x02 released).issue = none ∧ (given 0x02 released).life = .released ∧
    (given 0x02 released).inputs.head? ≠ some .powerCycle ∧ ∃ t, step (given 0x02 released) = .next t :=
  ⟨rfl, rfl, by decide, ⟨_, rfl⟩⟩
theorem witness_PowerCycleResetsTheBlock :
    { started with inputs := [.powerCycle] }.issue = none ∧
    { started with inputs := [.powerCycle] }.inputs = .powerCycle :: [] := ⟨rfl, rfl⟩
theorem witness_BusyIsReadOnlyAtBarriers :
    ∃ t, step (running [.b 50] [.low]) = .next t ∧
      (running [.b 50] [.low]).trace.countP Event.isRead < t.trace.countP Event.isRead := ⟨_, rfl, by decide⟩

end Sys2Proof.Tests
end

section
/-! PROOFS. The state of the block (10_state.md): which operation changes which element, and the invariants every step
keeps. -/

namespace Sys2Proof.Machine

/-! ### What a host word changes -/

/-- What a host word changes: the responses that do nothing else are one case, whatever they say. -/
inductive HostChange (i : Instr) (s : State) : State → Prop where
  | respond (op : OpCode) (st : Status) (v : Half) (hl : s.life ≠ .refreshing) (hs : st ≠ .hostConflict) :
      HostChange i s (respond op st v s)
  | conflict (op : OpCode) (hl : s.life = .refreshing) :
      HostChange i s (Machine.respond op .hostConflict 0 (setHostConflict s))
  | init (w h : Half) (hi : i = .init w h) (hl : s.life = .unbound) (hg : geometryOk s.cfg.fbCapacity w h = true) :
      HostChange i s (Machine.respond opInit .ok 0 (construct w h s))
  | clear (hi : i = .clear) (hl : s.life = .ready) : HostChange i s (Machine.respond opClear .ok 0 (fbClear s))
  | setpx (x y : Half) (d : Bool) (a : Nat) (b : Byte) (hi : i = .setpx x y d) (hl : s.life = .ready)
      (ha : a < fbSize s.cfg) : HostChange i s (Machine.respond opSetpx .ok 0 (memWrite s a b))
  | refresh (hi : i = .refresh) (hl : s.life = .ready) : HostChange i s (startRefresh s)
  | teardown (hi : i = .teardown) (hl : s.life = .ready) :
      HostChange i s (Machine.respond opTeardown .ok 0 (release s))

theorem HostEffect.change {i : Instr} {s t : State} (h : HostEffect i s t) : HostChange i s t := by
  cases h with
  | conflict op ho hl => exact .conflict op hl
  | init w h hi hl hg => exact .init w h hi hl hg
  | clear hi hl => exact .clear hi hl
  | setpx x y d hi hl hr ha => exact .setpx x y d _ _ hi hl ha
  | refresh hi hl => exact .refresh hi hl
  | teardown hi hl => exact .teardown hi hl
  | wrongState op ho hl hp hn => exact .respond _ _ _ hl (by decide)
  | illegal w hi hl => exact .respond _ _ _ hl (by decide)
  | invalidGeometry w h hi hl hg => exact .respond _ _ _ (by simp [hl]) (by decide)
  | setpxOutside x y d hi hl hr => exact .respond _ _ _ (by simp [hl]) (by decide)
  | getpxOutside x y hi hl hr => exact .respond _ _ _ (by simp [hl]) (by decide)
  | getpx x y hi hl hr ha => exact .respond _ _ _ (by simp [hl]) (by decide)
  | width hi hl => exact .respond _ _ _ (by simp [hl]) (by decide)
  | height hi hl => exact .respond _ _ _ (by simp [hl]) (by decide)

namespace HostChange

variable {i : Instr} {s t : State}

/-- During a refresh a host word sets FAULT, is answered and changes nothing else (R708). -/
theorem of_refreshing (h : HostChange i s t) (hl : s.life = .refreshing) :
    ∃ op, t = Machine.respond op .hostConflict 0 (setHostConflict s) := by
  cases h with
  | conflict op _ => exact ⟨op, rfl⟩
  | respond op st v hl' _ => exact absurd hl hl'
  | init _ _ _ hl' _ | clear _ hl' | setpx _ _ _ _ _ _ hl' _ | refresh _ hl' | teardown _ hl' => simp [hl] at hl'

/-- In RELEASED a host word is answered and changes nothing (R609). -/
theorem of_released (h : HostChange i s t) (hl : s.life = .released) : ∃ op st v, t = Machine.respond op st v s := by
  cases h with
  | respond op st v _ _ => exact ⟨op, st, v, rfl⟩
  | conflict _ hl' | init _ _ _ hl' _ | clear _ hl' | setpx _ _ _ _ _ _ hl' _ | refresh _ hl' | teardown _ hl' =>
    simp [hl] at hl'

/-- FAULT is kept, or the word came during a refresh and sets it (R115). -/
theorem fault_cases (h : HostChange i s t) :
    t.faultHostConflict = s.faultHostConflict ∨ t.faultHostConflict = true ∧ s.life = .refreshing := by
  cases h with
  | conflict op hl => exact .inr ⟨rfl, hl⟩
  | respond | init | clear | setpx | refresh | teardown => left; simp

/-- The pins are kept, or the word is an INIT that is accepted or a TEARDOWN (R107, R108). -/
theorem pins_cases (h : HostChange i s t) :
    (t.dir = s.dir ∧ t.lvl = s.lvl) ∨
      (∃ x y, i = .init x y ∧ geometryOk s.cfg.fbCapacity x y = true) ∧ s.life = .unbound ∨
      i = .teardown ∧ s.life = .ready := by
  cases h with
  | init w h hi hl hg => exact .inr (.inl ⟨⟨w, h, hi, hg⟩, hl⟩)
  | teardown hi hl => exact .inr (.inr ⟨hi, hl⟩)
  | respond | conflict | clear | setpx | refresh => left; simp

/-- FB is kept, or the word is an INIT that is accepted, a CLEAR or a SETPX (R106). -/
theorem fb_cases (h : HostChange i s t) :
    t.fb = s.fb ∨
      s.life = .unbound ∧ (∃ x y, i = .init x y ∧ geometryOk s.cfg.fbCapacity x y = true) ∨
      s.life = .ready ∧ (i = .clear ∨ ∃ x y d, i = .setpx x y d) := by
  cases h with
  | init w h hi hl hg => exact .inr (.inl ⟨hl, w, h, hi, hg⟩)
  | clear hi hl => exact .inr (.inr ⟨hl, .inl hi⟩)
  | setpx x y d a b hi hl ha => exact .inr (.inr ⟨hl, .inr ⟨x, y, d, hi⟩⟩)
  | respond | conflict | refresh | teardown => left; simp

/-- CFG is kept, or the word is an INIT that is accepted and stores its geometry (R103). -/
theorem cfg_cases (h : HostChange i s t) :
    t.cfg = s.cfg ∨
      ∃ x y, i = .init x y ∧ s.life = .unbound ∧ geometryOk s.cfg.fbCapacity x y = true ∧
        t.cfg = { s.cfg with w := x, h := y, hb := groupsOf y } := by
  cases h with
  | init w h hi hl hg => exact .inr ⟨w, h, hi, hl, hg, by simp⟩
  | respond | conflict | clear | setpx | refresh | teardown => left; simp

end HostChange

/-! ### What a sequencer step leaves unchanged -/

namespace SeqEffect

variable {s t : State}

theorem cfg_eq (h : SeqEffect s t) : t.cfg = s.cfg := by cases h <;> rfl
theorem fb_eq (h : SeqEffect s t) : t.fb = s.fb := by cases h <;> rfl
theorem dir_eq (h : SeqEffect s t) : t.dir = s.dir := by cases h <;> rfl
theorem fault_eq (h : SeqEffect s t) : t.faultHostConflict = s.faultHostConflict := by cases h <;> rfl

/-- Only the micro-op W changes a line (R108). -/
theorem lvl_cases (h : SeqEffect s t) : t.lvl = s.lvl ∨ ∃ p l, s.prog[s.upc]? = some (.w p l) := by
  cases h with
  | straight m hp hm hd =>
    cases m with
    | w p l => exact .inr ⟨p, l, hp⟩
    | d ms => exact .inl rfl
    | b iv => cases hm
  | pass | poll | timeout | finish => exact .inl rfl

/-- UPC stays or advances by one within PROG, or the refresh ends (R112, R570). -/
theorem upc_cases (h : SeqEffect s t) :
    (t.life = s.life ∧ t.prog = s.prog ∧ (t.upc = s.upc ∨ t.upc = s.upc + 1 ∧ s.upc < s.prog.length)) ∨
      t.life = .ready ∧ t.prog = [] ∧ t.upc = 0 := by
  cases h with
  | straight m hp hm hd => exact .inl ⟨rfl, rfl, .inr ⟨rfl, (List.getElem?_eq_some_iff.mp hp).1⟩⟩
  | pass iv hp hb => exact .inl ⟨rfl, rfl, .inr ⟨rfl, (List.getElem?_eq_some_iff.mp hp).1⟩⟩
  | poll iv hp hb ht => exact .inl ⟨rfl, rfl, .inl rfl⟩
  | timeout | finish => exact .inr ⟨rfl, rfl, rfl⟩

end SeqEffect

/-! ### The invariant of Safety.lean -/

namespace Inv

variable {s : State}

/-- The invariant says nothing of FAULT, TRACE, the inputs, the BUSY levels and the count of draws. -/
theorem outside (h : Inv s) (f : Bool) (tr : List Event) (ins : List Input) (br : List Level) (n : Nat) :
    Inv { s with faultHostConflict := f, trace := tr, inputs := ins, busyIn := br, draws := n } :=
  ⟨h.noIssue, h.capacity, h.unbuilt, h.geometry, h.fbCanonical, h.fbBounded, h.directions, h.levels, h.atRest,
    h.running, h.waiting⟩

theorem withInputs (h : Inv s) (ins : List Input) : Inv { s with inputs := ins } := h.outside _ _ ins _ _
theorem respond (h : Inv s) (op : OpCode) (st : Status) (v : Half) : Inv (respond op st v s) := h.outside _ _ _ _ _
theorem setHostConflict (h : Inv s) : Inv (setHostConflict s) := h.outside true _ _ _ _
theorem busyRead (h : Inv s) : Inv (busyRead s) := h.outside _ _ _ _ _

/-- INIT with an accepted geometry (R603). -/
theorem construct (h : Inv s) {x y : Half} (hg : geometryOk s.cfg.fbCapacity x y = true) :
    Inv (construct x y s) where
  noIssue := by simpa using h.noIssue
  capacity := by simpa using h.capacity
  unbuilt := by simp
  geometry _ := by rw [construct_cfg]; exact ⟨hg, rfl⟩
  fbCanonical := by rw [construct_fb]; exact wf_draw _ _
  fbBounded := by rw [construct_fb, construct_cfg]; exact bounded_draw _ _
  directions := by simp [Life.claims]
  levels := by simp
  atRest := by simp
  running := by simp
  waiting := by simp

/-- In READY a framebuffer in canonical form and inside its bounds may take FB's place. -/
theorem withFb (h : Inv s) (hl : s.life = .ready) {m : Memory} (hw : Memory.wf m = true)
    (hb : ∀ c ∈ m, c.1 < fbSize s.cfg) : Inv { s with fb := m } :=
  { h with
    unbuilt := by simp [hl]
    fbCanonical := hw
    fbBounded := hb
    running := by simp [hl] }

theorem fbClear (h : Inv s) (hl : s.life = .ready) : Inv (fbClear s) := h.withFb hl wf_nil (by simp)

theorem memWrite (h : Inv s) (hl : s.life = .ready) {a : Nat} (ha : a < fbSize s.cfg) (b : Byte) :
    Inv (memWrite s a b) :=
  h.withFb hl (wf_write a b h.fbCanonical) (bounded_write b h.fbBounded ha)

/-- REFRESH in READY (R606). -/
theorem startRefresh (h : Inv s) (hl : s.life = .ready) : Inv (startRefresh s) where
  noIssue := h.noIssue
  capacity := h.capacity
  unbuilt := by simp
  geometry _ := h.geometry (by simp [hl])
  fbCanonical := h.fbCanonical
  fbBounded := h.fbBounded
  directions := by simpa [hl, Life.claims] using h.directions
  levels := by simp [Life.claims]
  atRest := by simp
  running := by simp
  waiting := by simp

/-- TEARDOWN in READY (R607). -/
theorem release (h : Inv s) (hl : s.life = .ready) : Inv (release s) where
  noIssue := by simpa using h.noIssue
  capacity := by simpa using h.capacity
  unbuilt := by simp
  geometry _ := by simpa using h.geometry (by simp [hl])
  fbCanonical := by simpa using h.fbCanonical
  fbBounded := by simpa using h.fbBounded
  directions := by simp [Life.claims]
  levels := by simp
  atRest := by simp
  running := by simp
  waiting := by simp

/-- Power-on (R118, R801). -/
theorem powerOn (h : Inv s) : Inv (powerOn s) where
  noIssue := rfl
  capacity := h.capacity
  unbuilt _ := ⟨rfl, rfl, rfl, rfl⟩
  geometry := by simp
  fbCanonical := wf_nil
  fbBounded := by simp
  directions := rfl
  levels _ := rfl
  atRest _ := ⟨rfl, rfl, rfl⟩
  running := by simp
  waiting := by simp

/-- A host word keeps the invariant. -/
theorem hostChange {i : Instr} {t : State} (h : Inv s) (hc : HostChange i s t) : Inv t := by
  cases hc with
  | respond op st v _ _ => exact h.respond op st v
  | conflict op _ => exact h.setHostConflict.respond _ _ _
  | init x y _ _ hg => exact (h.construct hg).respond _ _ _
  | clear _ hl => exact (h.fbClear hl).respond _ _ _
  | setpx x y d a b _ hl ha => exact (h.memWrite hl ha b).respond _ _ _
  | refresh _ hl => exact h.startRefresh hl
  | teardown _ hl => exact (h.release hl).respond _ _ _

/-- ELAPSED is 0 at a micro-op other than a barrier (R113). -/
theorem elapsed_eq_zero (h : Inv s) {m : MicroOp} (hp : s.prog[s.upc]? = some m) (hm : m.straight = true) :
    s.elapsed = 0 := by
  refine Decidable.byContradiction fun h0 => ?_
  obtain ⟨iv, k, hb, -⟩ := h.waiting h0
  obtain rfl : m = .b iv := Option.some.inj (hp.symm.trans hb)
  cases hm

/-- At a barrier ELAPSED is a count of its polls, 0 included (R113). -/
theorem elapsed_polls (h : Inv s) {iv : Nat} (hp : s.prog[s.upc]? = some (.b iv)) : ∃ k, s.elapsed = k * iv := by
  by_cases h0 : s.elapsed = 0
  · exact ⟨0, by simp [h0]⟩
  · obtain ⟨iv', k, hb, hk⟩ := h.waiting h0
    obtain rfl : iv = iv' := by simpa [hp] using hb
    exact ⟨k, hk⟩

/-- UPC may move past its micro-op with ELAPSED 0, whatever the lines are then. -/
theorem advance (h : Inv s) (hl : s.life = .refreshing) {m : MicroOp} (hp : s.prog[s.upc]? = some m) (l : Lines)
    {n : Nat} (hn : n = 0) : Inv { s with lvl := l, upc := s.upc + 1, elapsed := n } :=
  { h with
    levels := by simp [hl, Life.claims]
    atRest := by simp [hl]
    running := fun _ => ⟨(h.running hl).1, (List.getElem?_eq_some_iff.mp hp).1⟩
    waiting := by simp [hn] }

/-- A barrier may wait once more (R556). -/
theorem poll (h : Inv s) (hl : s.life = .refreshing) {iv : Nat} (hp : s.prog[s.upc]? = some (.b iv)) :
    Inv { s with elapsed := s.elapsed + iv } :=
  { h with
    atRest := by simp [hl]
    waiting := fun _ => by
      obtain ⟨k, hk⟩ := h.elapsed_polls hp
      exact ⟨iv, k + 1, hp, by simp [hk, Nat.succ_mul]⟩ }

/-- The end of a refresh (R568, R569). -/
theorem endRefresh (h : Inv s) (hl : s.life = .refreshing) (st : Status) : Inv (endRefresh st s) where
  noIssue := h.noIssue
  capacity := h.capacity
  unbuilt := by simp
  geometry _ := h.geometry (by simp [hl])
  fbCanonical := h.fbCanonical
  fbBounded := h.fbBounded
  directions := by simpa [hl, Life.claims] using h.directions
  levels := by simp [Life.claims]
  atRest _ := ⟨rfl, rfl, rfl⟩
  running := by simp
  waiting := by simp

/-- A sequencer step of a refresh keeps the invariant. -/
theorem seqEffect {t : State} (h : Inv s) (hl : s.life = .refreshing) (hs : SeqEffect s t) : Inv t := by
  cases hs with
  | straight m hp hm _ => exact (h.advance hl hp _ (h.elapsed_eq_zero hp hm)).outside _ _ _ _ _
  | pass iv hp _ => exact h.busyRead.advance hl hp s.lvl rfl
  | poll iv hp _ _ => exact (h.busyRead.poll hl hp).outside _ _ _ _ _
  | timeout iv _ _ _ => exact h.busyRead.endRefresh hl _
  | finish _ _ => exact h.endRefresh hl _

end Inv

/-- Settles O43: the invariant is kept by each effect a step can have. -/
theorem stepKeepsTheInvariant : Obligations.StepKeepsTheInvariant := by
  intro s t h hst
  cases step_cases h.noIssue hst with
  | word w rest hin t he => exact (h.withInputs rest).hostChange he.change
  | power rest hin => exact (h.withInputs rest).powerOn
  | sequencer hin hl t he => exact (h.withInputs s.inputs.tail).seqEffect hl he
  | idle hin hl => exact h.withInputs _

/-! ### What TRACE tells -/

theorem seen_cons (e : Event) (tr : List Event) : seen (e :: tr) = observe (seen tr) e := by simp [seen]

theorem seen_append (es tr : List Event) : seen (es ++ tr) = observeAll (seen tr) es.reverse := by simp [seen]

/-- The events of a list of micro-ops are pin writes and delays. -/
theorem mem_eventsOf {ms : List MicroOp} {e : Event} (h : e ∈ ms.flatMap eventsOf) :
    (∃ p l, e = .wr p l) ∨ ∃ n, e = .dly n := by
  obtain ⟨m, -, hm⟩ := List.mem_flatMap.mp h
  cases m with
  | w p l => exact .inl ⟨p, l, List.mem_singleton.mp hm⟩
  | d n => exact .inr ⟨n, List.mem_singleton.mp hm⟩
  | b iv => cases hm

/-- Events that configure no pin leave DIR. -/
theorem dirsSeen_append {es : List Event} (h : ∀ e ∈ es, ∀ p d, e ≠ .cfg p d) (tr : List Event) :
    dirsSeen (es ++ tr) = dirsSeen tr := by
  induction es with
  | nil => rfl
  | cons e rest ih =>
    have ih := ih fun e he => h e (List.mem_cons_of_mem _ he)
    cases e with
    | cfg p d => exact absurd rfl (h _ List.mem_cons_self p d)
    | wr | rd | dly | resp => exact ih

theorem isConflict_resp (op : OpCode) (st : Status) (v : Half) :
    (Event.resp op st v).isConflict = decide (st = .hostConflict) := by cases st <;> rfl

namespace TraceAccounts

variable {s t : State}

/-- Only LVL, DIR, FAULT and TRACE matter. -/
theorem congr (h : TraceAccounts s) (hl : t.lvl = s.lvl) (hd : t.dir = s.dir)
    (hf : t.faultHostConflict = s.faultHostConflict) (ht : t.trace = s.trace) : TraceAccounts t := by
  constructor
  · rw [hl, ht, h.levels]
  · rw [hd, ht, h.directions]
  · rw [hf, ht, h.conflict]

/-- LVL is what a receiver has seen. -/
theorem lvl_seen (h : TraceAccounts s) : s.lvl = (seen s.trace).lines := h.levels

theorem of_seen (hl : s.lvl = (seen s.trace).lines) (hd : s.dir = dirsSeen s.trace)
    (hf : s.faultHostConflict = s.trace.any Event.isConflict) : TraceAccounts s := ⟨hl, hd, hf⟩

/-- An event that is no Cfg, no Wr and no HOST_CONFLICT response leaves the account as it is. -/
theorem record (h : TraceAccounts s) {e : Event} (hr : ∀ r, observe r e = r)
    (hd : dirsSeen (e :: s.trace) = dirsSeen s.trace) (hc : e.isConflict = false) : TraceAccounts (record e s) :=
  of_seen (by simpa [seen_cons, hr] using h.lvl_seen) (h.directions.trans hd.symm) (by simpa [hc] using h.conflict)

theorem respond (h : TraceAccounts s) (op : OpCode) {st : Status} (hs : st ≠ .hostConflict) (v : Half) :
    TraceAccounts (respond op st v s) :=
  h.record (fun _ => rfl) rfl (by rw [isConflict_resp]; simpa using hs)

theorem delay (h : TraceAccounts s) (ms : Nat) : TraceAccounts (delay ms s) := h.record (fun _ => rfl) rfl rfl

theorem busyRead (h : TraceAccounts s) : TraceAccounts (busyRead s) :=
  (h.record (e := .rd (nextBusy s)) (fun _ => rfl) rfl rfl).congr rfl rfl rfl rfl

/-- A refused word of a refresh sets FAULT with its response (R708). -/
theorem conflictResponse (h : TraceAccounts s) (op : OpCode) :
    TraceAccounts (Machine.respond op .hostConflict 0 (setHostConflict s)) :=
  of_seen (by simpa [seen_cons, observe] using h.lvl_seen) h.directions rfl

/-- The Cfg events of INIT leave the pins claimed and every line unknown (R603). -/
theorem construct (h : TraceAccounts s) (x y : Half) : TraceAccounts (construct x y s) :=
  of_seen (by simp [seen_cons, observe, setLine, Lines.unknown]) (by simp [dirsSeen, setDir, Dirs.claimed])
    (by simpa [Event.isConflict] using h.conflict)

/-- The Cfg events of TEARDOWN leave the pins unclaimed and every line unknown (R607). -/
theorem release (h : TraceAccounts s) : TraceAccounts (release s) :=
  of_seen (by simp [seen_cons, observe, setLine, Lines.unknown]) (by simp [dirsSeen, setDir, Dirs.unclaimed])
    (by simpa [Event.isConflict] using h.conflict)

/-- Power-on empties TRACE (R118). -/
theorem powerOn (s : State) : TraceAccounts (powerOn s) := ⟨rfl, rfl, rfl⟩

/-- Pin writes and delays: a receiver sees the levels they leave. -/
theorem afterStraight (h : TraceAccounts s) (ms : List MicroOp) : TraceAccounts (afterStraight ms s) := by
  have hev {e : Event} (he : e ∈ (ms.flatMap eventsOf).reverse) := mem_eventsOf (List.mem_reverse.mp he)
  have hcfg : ∀ e ∈ (ms.flatMap eventsOf).reverse, ∀ p d, e ≠ .cfg p d := fun e he p d => by
    rcases hev he with ⟨p, l, rfl⟩ | ⟨n, rfl⟩ <;> simp
  have hresp : (ms.flatMap eventsOf).reverse.any Event.isConflict = false := List.any_eq_false.mpr fun e he => by
    rcases hev he with ⟨p, l, rfl⟩ | ⟨n, rfl⟩ <;> simp [Event.isConflict]
  refine of_seen ?_ (h.directions.trans (dirsSeen_append hcfg _).symm) ?_
  · rw [afterStraight_lvl, afterStraight_trace, seen_append, List.reverse_reverse, observeAll_lines, h.lvl_seen]
  · rw [afterStraight_trace, List.any_append, hresp, Bool.false_or]
    exact h.conflict

theorem hostChange {i : Instr} (h : TraceAccounts s) (hc : HostChange i s t) : TraceAccounts t := by
  cases hc with
  | respond op st v _ hs => exact h.respond op hs v
  | conflict op _ => exact h.conflictResponse op
  | init x y _ _ _ => exact (h.construct x y).respond _ (by decide) _
  | clear => exact (h.congr (t := fbClear s) rfl rfl rfl rfl).respond _ (by decide) _
  | setpx x y d a b => exact (h.congr (t := memWrite s a b) rfl rfl rfl rfl).respond _ (by decide) _
  | refresh => exact h.congr rfl rfl rfl rfl
  | teardown => exact h.release.respond _ (by decide) _

theorem endRefresh (h : TraceAccounts s) {st : Status} (hs : st ≠ .hostConflict) : TraceAccounts (endRefresh st s) :=
  (h.respond opRefresh hs 0).congr rfl rfl rfl rfl

theorem seqEffect (h : TraceAccounts s) (hs : SeqEffect s t) : TraceAccounts t := by
  cases hs with
  | straight m => exact h.afterStraight [m]
  | pass iv => exact h.busyRead.congr rfl rfl rfl rfl
  | poll iv => exact (h.busyRead.delay iv).congr rfl rfl rfl rfl
  | timeout iv => exact h.busyRead.endRefresh (by decide)
  | finish => exact h.endRefresh (by decide)

end TraceAccounts

/-- A frame issued whole writes pins and does nothing else. -/
theorem step_issue_afterStraight {s t : State} {bytes : List Byte} (hi : s.issue = some bytes)
    (h : step s = .next t) : ∃ ms, t = afterStraight ms { s with issue := none } := by
  obtain ⟨i, -, -, htr⟩ := step_issue_cases hi h
  exact ⟨_, (transact_next (frameOf_writes i s.cfg s.fb) htr).2⟩

/-- Settles O45: the account is kept by each effect a step can have, an issued frame included. -/
theorem stepKeepsTraceAccounts : Obligations.StepKeepsTraceAccounts := by
  intro s t h hst
  cases hi : s.issue with
  | some bytes =>
    obtain ⟨ms, rfl⟩ := step_issue_afterStraight hi hst
    exact (h.congr (t := { s with issue := none }) rfl rfl rfl rfl).afterStraight ms
  | none =>
    cases step_cases hi hst with
    | word w rest hin t he => exact (h.congr (t := { s with inputs := rest }) rfl rfl rfl rfl).hostChange he.change
    | power rest hin => exact .powerOn _
    | sequencer hin hl t he => exact (h.congr (t := { s with inputs := s.inputs.tail }) rfl rfl rfl rfl).seqEffect he
    | idle hin hl => exact h.congr rfl rfl rfl rfl

/-! ### What a step leaves unchanged -/

/-- Settles O28: a word of a refresh is refused and leaves UPC, and the sequencer moves it by one at most. -/
theorem upcStaysAdvancesByOneOrTheRefreshEnds : Obligations.UpcStaysAdvancesByOneOrTheRefreshEnds := by
  intro s t hi hl hpc hst
  cases step_cases hi hst with
  | word w rest hin t he =>
    obtain ⟨op, rfl⟩ := he.change.of_refreshing hl
    exact .inl ⟨hl, rfl, .inl rfl⟩
  | power rest hin => exact absurd (by rw [hin]; rfl) hpc
  | sequencer hin _ t he =>
    rcases he.upc_cases with ⟨hlife, hprog, hupc⟩ | hend
    · exact .inl ⟨hlife.trans hl, hprog, hupc⟩
    · exact .inr hend
  | idle hin hl' => exact absurd hl hl'

/-- A step other than a power cycle keeps FAULT, or takes a word of a refresh and sets it (R115). -/
theorem step_fault_cases {s t : State} (hi : s.issue = none) (hpc : s.inputs.head? ≠ some .powerCycle)
    (h : step s = .next t) :
    t.faultHostConflict = s.faultHostConflict ∨
      t.faultHostConflict = true ∧ s.life = .refreshing ∧ ∃ w, s.inputs.head? = some (.word w) := by
  cases step_cases hi h with
  | word w rest hin t he => exact he.change.fault_cases.imp_right fun ⟨hf, hl⟩ => ⟨hf, hl, w, by simp [hin]⟩
  | power rest hin => exact absurd (by rw [hin]; rfl) hpc
  | sequencer hin hl t he => exact .inl he.fault_eq
  | idle hin hl => exact .inl rfl

/-- Settles O49: only a word of a refresh touches FAULT, and it sets it. -/
theorem faultIsSticky : Obligations.FaultIsSticky := by
  intro s t hi hst hpc
  rcases step_fault_cases hi hpc hst with hf | ⟨hset, hword⟩
  · rw [hf]
    exact ⟨id, fun h0 h1 => absurd h1 (by simp [h0])⟩
  · exact ⟨fun _ => hset, fun _ _ => hword⟩

/-- Settles O50: host words change the pins only as `HostChange.pins_cases` says, the sequencer only by W. -/
theorem pinStateChangesOnlyThere : Obligations.PinStateChangesOnlyThere := by
  intro s t hi hst
  cases step_cases hi hst with
  | word w rest hin t he =>
    have hw : s.inputs.head? = some (.word w) := by simp [hin]
    rcases he.change.pins_cases with ⟨hd, hl⟩ | hc
    · exact ⟨absurd hd, absurd hl⟩
    · exact ⟨fun _ => .inr ⟨w, hw, hc⟩, fun _ => .inr (.inr ⟨w, hw, hc⟩)⟩
  | power rest hin =>
    have hp : s.inputs.head? = some .powerCycle := by simp [hin]
    exact ⟨fun _ => .inl hp, fun _ => .inl hp⟩
  | sequencer hin hl t he =>
    exact ⟨absurd he.dir_eq, fun hne => .inr (.inl ⟨hl, he.lvl_cases.resolve_left hne⟩)⟩
  | idle hin hl => exact ⟨absurd rfl, absurd rfl⟩

/-- Settles O51: host words change FB only as `HostChange.fb_cases` says, and the sequencer does not. -/
theorem framebufferChangesOnlyThere : Obligations.FramebufferChangesOnlyThere := by
  intro s t hi hst hne
  cases step_cases hi hst with
  | word w rest hin t he => exact .inr ⟨w, by simp [hin], he.change.fb_cases.resolve_left hne⟩
  | power rest hin => exact .inl (by simp [hin])
  | sequencer hin hl t he => exact absurd he.fb_eq hne
  | idle hin hl => exact absurd rfl hne

/-- A step keeps CFG, or it is a power cycle, or it takes an INIT that is accepted; the last two put a geometry in
place of the old one (R103). -/
theorem step_cfg_cases {s t : State} (h : step s = .next t) :
    t.cfg = s.cfg ∨ ∃ x y hb, t.cfg = { s.cfg with w := x, h := y, hb := hb } ∧
      (s.inputs.head? = some .powerCycle ∨ ∃ w, s.inputs.head? = some (.word w) ∧ decodeHost w = .init x y ∧
        s.life = .unbound ∧ geometryOk s.cfg.fbCapacity x y = true) := by
  cases hi : s.issue with
  | some bytes =>
    obtain ⟨ms, rfl⟩ := step_issue_afterStraight hi h
    exact .inl rfl
  | none =>
    cases step_cases hi h with
    | word w rest hin t he =>
      rcases he.change.cfg_cases with hc | ⟨x, y, hd, hl, hg, hc⟩
      · exact .inl hc
      · exact .inr ⟨x, y, _, hc, .inr ⟨w, by simp [hin], hd, hl, hg⟩⟩
    | power rest hin => exact .inr ⟨0, 0, 0, rfl, .inl (by simp [hin])⟩
    | sequencer hin hl t he => exact .inl he.cfg_eq
    | idle hin hl => exact .inl rfl

/-- Settles O52: every change of CFG is a change of the geometry alone. -/
theorem configurationIsReadOnly : Obligations.ConfigurationIsReadOnly := by
  intro s t hst
  rcases step_cfg_cases hst with hc | ⟨x, y, hb, hc, hw⟩
  · rw [hc]
    exact ⟨rfl, rfl, rfl, absurd rfl⟩
  · rw [hc]
    refine ⟨rfl, rfl, rfl, fun _ => hw.imp_right ?_⟩
    rintro ⟨w, hin, hd, hl, hg⟩
    exact ⟨w, x, y, hin, hd, hl, hg⟩

/-- Settles O53: in RELEASED a word is answered and no sequencer runs. -/
theorem releasedIsTerminal : Obligations.ReleasedIsTerminal := by
  intro s t hi hl hpc hst
  cases step_cases hi hst with
  | word w rest hin t he =>
    obtain ⟨op, st, v, rfl⟩ := he.change.of_released hl
    rw [hin]
    rfl
  | power rest hin => exact absurd (by rw [hin]; rfl) hpc
  | sequencer hin hl' t he => simp [hl] at hl'
  | idle hin hl' => rfl

/-! ### A free BUSY level -/

theorem nextBusy_free {s : State} (h : s.busyIn = []) : nextBusy s = lvlOf (Config.busyHigh s.draws) := by
  simp [nextBusy, h]

theorem busyRead_free {s : State} (h : s.busyIn = []) :
    busyRead s = { s with draws := s.draws + 1, trace := .rd (lvlOf (Config.busyHigh s.draws)) :: s.trace } := by
  simp [busyRead, record, nextBusy_free h, h]

/-- Settles O23: by cases on the free draw, with no timeout. -/
theorem unscheduledBusyReadsAreFree : Obligations.UnscheduledBusyReadsAreFree := by
  intro s iv hd hp hb hT
  have ht : timedOut s = false := by simp [timedOut, hT]
  have hn := nextBusy_free hb
  rw [sequencerStep_at hp, microStep]
  cases hf : Config.busyHigh s.draws with
  | true =>
    rw [hf] at hn
    rw [barrier_high hd hn ht, busyRead_free hb, hf]
    rfl
  | false =>
    rw [hf] at hn
    rw [barrier_low hd hn, busyRead_free hb, hf]
    rfl

/-! ### Power-on -/

theorem reset_capacity : 4736 ≤ State.reset.cfg.fbCapacity := Nat.le_add_left _ _

/-- Settles O41: the values of R118 as `State.reset` holds them. -/
theorem resetValues : Obligations.ResetValues := by
  have hdir (p : Pin) : dirOf State.reset.dir p = .unconfigured := by
    cases p with
    | out q => cases q <;> rfl
    | busy => rfl
  have hlvl (p : OutPin) : lineOf State.reset.lvl p = none := by cases p <;> rfl
  exact ⟨rfl, rfl, rfl, rfl, rfl, rfl, reset_capacity, rfl, hdir, hlvl, rfl, rfl, rfl, rfl, rfl⟩

theorem inv_reset : Inv State.reset where
  noIssue := rfl
  capacity := reset_capacity
  unbuilt _ := ⟨rfl, rfl, rfl, rfl⟩
  geometry h := absurd rfl h
  fbCanonical := reset_fb_wf
  fbBounded _ hc := nomatch hc
  directions := rfl
  levels _ := rfl
  atRest _ := ⟨rfl, rfl, rfl⟩
  running h := nomatch h
  waiting h := absurd rfl h

theorem framesClosed_reset : FramesClosed State.reset := ⟨fun _ => nofun, nofun⟩

/-- Settles O42: the reset state is its own power-on. -/
theorem invariantsHoldAtReset : Obligations.InvariantsHoldAtReset :=
  ⟨inv_reset, .powerOn State.reset, framesClosed_reset⟩

end Sys2Proof.Machine
end

section
/-! PROOFS. The framebuffer as a memory (20_memory.md): SETPX is one read, one bit and one write of its byte. -/

namespace Sys2Proof.Machine

/-- Setting a pixel in the memory where it is set already changes nothing, as the write before is the byte read. -/
theorem fbWrite_withPixel_idem (m : Memory) (a k : Nat) (d : Bool) :
    let m' := fbWrite m a (withPixel (fbRead m a) k d)
    fbWrite m' a (withPixel (fbRead m' a) k d) = m' := by
  intro m'
  have hread : fbRead m' a = withPixel (fbRead m a) k d := by rw [fbRead_write, if_pos rfl]
  rw [hread, withPixel_idem, fbWrite_idem]

/-- What SETPX does with LIFE, CFG and FB, performed or refused (R405, R407). -/
theorem exec_setpx_state {s t : State} {x y : Half} {d : Bool} (h : exec (.setpx x y d) s = .next t) :
    t.life = s.life ∧ t.cfg = s.cfg ∧
      t.fb = if s.life = .ready ∧ inRange s.cfg x y = true then
        fbWrite s.fb (addr s.cfg x y) (withPixel (fbRead s.fb (addr s.cfg x y)) (bitk y) d) else s.fb := by
  cases exec_host_cases rfl h with
  | conflict op ho hl => simp [hl]
  | wrongState op ho hl hp hn =>
    cases ho
    have hready : s.life ≠ .ready := (hp.resolve_left fun h => absurd h.1 (by decide)).2
    simp [hready]
  | setpxOutside x y d hi hl hr => cases hi; simp [hr]
  | setpx x y d hi hl hr ha => cases hi; simp [hl, hr]
  | illegal _ hi | invalidGeometry _ _ hi | getpxOutside _ _ hi | init _ _ hi | clear hi | getpx _ _ hi | width hi
  | height hi | refresh hi | teardown hi => cases hi

/-- Settles O16: the first SETPX keeps LIFE and CFG, so the second is refused like it or sets the same pixel again. -/
theorem setpxIsIdempotent : Obligations.SetpxIsIdempotent := by
  intro s t u x y d ht hu
  obtain ⟨hlife, hcfg, hfb⟩ := exec_setpx_state ht
  obtain ⟨-, -, hfb'⟩ := exec_setpx_state hu
  rw [hfb', hlife, hcfg]
  split
  · rename_i hset
    rw [hfb, if_pos hset]
    exact fbWrite_withPixel_idem _ _ _ _
  · rfl

end Sys2Proof.Machine
end

section
/-! PROOFS. Encoding (30_encoding.md): what each OP spells, the round trip of both formats, and what the encoded
instructions do to TRACE. -/

namespace Sys2Proof

variable {w : HostWord}

/-! ### The operation a host word spells (R303), one equation per OP -/

theorem decodeHost_init (hr : w.rsv = 0) (ho : w.op = opInit) : decodeHost w = .init w.x w.y := by
  simp [decodeHost, hr, ho]

theorem decodeHost_clear (hr : w.rsv = 0) (ho : w.op = opClear) : decodeHost w = .clear := by
  simp [decodeHost, hr, ho, opInit, opClear]

theorem decodeHost_setpx (hr : w.rsv = 0) (ho : w.op = opSetpx) : decodeHost w = .setpx w.x w.y w.dark := by
  simp [decodeHost, hr, ho, opInit, opClear, opSetpx]

theorem decodeHost_getpx (hr : w.rsv = 0) (ho : w.op = opGetpx) : decodeHost w = .getpx w.x w.y := by
  simp [decodeHost, hr, ho, opInit, opClear, opSetpx, opGetpx]

theorem decodeHost_width (hr : w.rsv = 0) (ho : w.op = opWidth) : decodeHost w = .width := by
  simp [decodeHost, hr, ho, opInit, opClear, opSetpx, opGetpx, opWidth]

theorem decodeHost_height (hr : w.rsv = 0) (ho : w.op = opHeight) : decodeHost w = .height := by
  simp [decodeHost, hr, ho, opInit, opClear, opSetpx, opGetpx, opWidth, opHeight]

theorem decodeHost_refresh (hr : w.rsv = 0) (ho : w.op = opRefresh) : decodeHost w = .refresh := by
  simp [decodeHost, hr, ho, opInit, opClear, opSetpx, opGetpx, opWidth, opHeight, opRefresh]

theorem decodeHost_teardown (hr : w.rsv = 0) (ho : w.op = opTeardown) : decodeHost w = .teardown := by
  simp [decodeHost, hr, ho, opInit, opClear, opSetpx, opGetpx, opWidth, opHeight, opRefresh, opTeardown]

/-- The reserved words of R304 are those that decode to the reserved instruction. -/
theorem decodeHost_reserved_iff :
    (w.op = 0 ∨ 9 ≤ w.op.toNat ∨ w.rsv ≠ 0) ↔ decodeHost w = .reservedHostWord w := by
  refine ⟨decodeHost_reserved, fun hd => ?_⟩
  by_cases hr : w.rsv = 0
  · rcases op_cases w with h | h | h | h | h | h | h | h | h | h
    · exact .inl h
    · simp [decodeHost_init hr h] at hd
    · simp [decodeHost_clear hr h] at hd
    · simp [decodeHost_setpx hr h] at hd
    · simp [decodeHost_getpx hr h] at hd
    · simp [decodeHost_width hr h] at hd
    · simp [decodeHost_height hr h] at hd
    · simp [decodeHost_refresh hr h] at hd
    · simp [decodeHost_teardown hr h] at hd
    · exact .inr (.inl h)
  · exact .inr (.inr hr)

theorem isReserved_iff : w.isReserved = true ↔ w.op = 0 ∨ 9 ≤ w.op.toNat ∨ w.rsv ≠ 0 := by
  simp [HostWord.isReserved, HostWord.op, HostWord.rsv, or_assoc, ← BitVec.toNat_inj]

/-! ### The round trip of a wire frame -/

/-- The opcode byte names its command, but for the second form of UPD_SEQ, which its payload tells (R507). -/
theorem decodeOpcode_of_wireBytes {i : Instr} {op : Byte} {payload : List Byte} (h : wireBytes i = some (op, payload)) :
    decodeOpcode op = some i ∨ i = .updSeq .fullRefresh ∧ decodeOpcode op = some (.updSeq .loadLut) := by
  cases i with
  | init | clear | setpx | getpx | width | height | refresh | teardown | reservedHostWord => cases h
  | updSeq mode =>
    cases h
    cases mode with
    | loadLut => exact .inl (by decide)
    | fullRefresh => exact .inr ⟨rfl, by decide⟩
  | drvOutCtrl | deepSleep | dataEntry | swReset | masterAct | writeRamPri | writeRamSec | ramXWin | ramYWin | ramXPtr
  | ramYPtr =>
    cases h
    exact .inl (by decide)

/-- A frame of a wire command's own bytes decodes to that command (R308, R310). -/
theorem decodeWire_of_wireBytes {i : Instr} {op : Byte} {payload : List Byte}
    (h : wireBytes i = some (op, payload)) : decodeWire (op :: payload) = .ok i := by
  rcases decodeOpcode_of_wireBytes h with hop | ⟨rfl, hop⟩
  · simp [decodeWire, hop, h]
  · have hne : wireBytes (.updSeq .loadLut) ≠ some (op, payload) := by
      rw [← h]
      decide
    simp [decodeWire, hop, h, hne]

/-- The encoding of a wire command is its opcode byte and its payload (R306). -/
theorem encode_wire {i : Instr} (hi : i.isHost = false) :
    ∃ op payload, wireBytes i = some (op, payload) ∧ encode i = .wire (op :: payload) := by
  cases i with
  | init | clear | setpx | getpx | width | height | refresh | teardown | reservedHostWord => cases hi
  | drvOutCtrl | deepSleep | dataEntry | swReset | masterAct | updSeq | writeRamPri | writeRamSec | ramXWin | ramYWin
  | ramXPtr | ramYPtr => exact ⟨_, _, rfl, rfl⟩

theorem decode_encode_wire {i : Instr} (hi : i.isHost = false) : decode (encode i) = .ok i := by
  obtain ⟨op, payload, hb, he⟩ := encode_wire hi
  rw [he]
  exact decodeWire_of_wireBytes hb

/-! ### The statements about the decoder -/

/-- Settles O2: a host word by its fields, a wire frame by its bytes. -/
theorem decodeOfEncodeIsTheInstruction : Obligations.DecodeOfEncodeIsTheInstruction := by
  intro i hi
  cases i with
  | init w h => simp [encode, decode, decodeHost_init]
  | clear => simp [encode, decode, decodeHost_clear]
  | setpx x y dark => simp [encode, decode, decodeHost_setpx]
  | getpx x y => simp [encode, decode, decodeHost_getpx]
  | width => simp [encode, decode, decodeHost_width]
  | height => simp [encode, decode, decodeHost_height]
  | refresh => simp [encode, decode, decodeHost_refresh]
  | teardown => simp [encode, decode, decodeHost_teardown]
  | reservedHostWord w => exact congrArg Except.ok (decodeHost_reserved (isReserved_iff.mp hi))
  | drvOutCtrl | deepSleep | dataEntry | swReset | masterAct | updSeq | writeRamPri | writeRamSec | ramXWin | ramYWin
  | ramXPtr | ramYPtr => exact decode_encode_wire rfl

/-- Settles O1: each written-out word is the encoding of its instruction, but for the CLEAR word, whose ignored DARK
and X fields are not 0. -/
theorem writtenWordsDecode : Obligations.WrittenWordsDecode := by
  refine ⟨?_, ?_, ?_, ?_, ?_, ?_, ?_, ?_, ?_⟩
  · exact decodeOfEncodeIsTheInstruction (.init 296 128) rfl
  · exact congrArg Except.ok (decodeHost_clear rfl rfl)
  · exact decodeOfEncodeIsTheInstruction (.setpx 295 127 true) rfl
  · exact decodeOfEncodeIsTheInstruction (.getpx 1 9) rfl
  · exact decodeOfEncodeIsTheInstruction .teardown rfl
  · exact decodeOfEncodeIsTheInstruction (.reservedHostWord 0x000200010F) rfl
  · exact decodeOfEncodeIsTheInstruction .drvOutCtrl rfl
  · exact decodeOfEncodeIsTheInstruction (.updSeq .fullRefresh) rfl
  · exact decodeOfEncodeIsTheInstruction .writeRamSec rfl

end Sys2Proof

namespace Sys2Proof.Machine

/-- A reserved word outside a refresh (R608). -/
theorem exec_reserved_illegal (w : HostWord) {s : State} (hl : s.life ≠ .refreshing) :
    exec (.reservedHostWord w) s = .next (respond w.op .illegalOp 0 s) := by
  simp only [exec, execReservedHostWord, if_neg hl]
  rfl

/-- A reserved word during a refresh (R602, R708). -/
theorem exec_reserved_conflict (w : HostWord) {s : State} (hl : s.life = .refreshing) :
    exec (.reservedHostWord w) s = .next (respond w.op .hostConflict 0 (setHostConflict s)) := by
  simp only [exec, execReservedHostWord, if_pos hl]
  rfl

/-- Settles O3: the decoder by the equation of each OP. -/
theorem reservedWordsAndUnusedFields : Obligations.ReservedWordsAndUnusedFields := by
  refine ⟨fun w => decodeHost_reserved_iff, fun w s => ⟨exec_reserved_illegal w, exec_reserved_conflict w⟩, ?_⟩
  intro w w' hr hr' hop
  constructor
  · rintro (h | h | h | h | h)
    · rw [decodeHost_clear hr h, decodeHost_clear hr' (hop.trans h)]
    · rw [decodeHost_width hr h, decodeHost_width hr' (hop.trans h)]
    · rw [decodeHost_height hr h, decodeHost_height hr' (hop.trans h)]
    · rw [decodeHost_refresh hr h, decodeHost_refresh hr' (hop.trans h)]
    · rw [decodeHost_teardown hr h, decodeHost_teardown hr' (hop.trans h)]
  · rintro (h | h) hx hy
    · rw [decodeHost_init hr h, decodeHost_init hr' (hop.trans h), hx, hy]
    · rw [decodeHost_getpx hr h, decodeHost_getpx hr' (hop.trans h), hx, hy]

/-! ### Wire commands -/

/-- Settles O5: both sides are the frame's pin writes, one after the other. -/
theorem sequencerRunsAWireCommand : Obligations.SequencerRunsAWireCommand := by
  intro i s rest hi hl hd hiss hin hp
  have hw := frameOf_writes i s.cfg s.fb
  rw [exec_wire i s hi, transact_writes hw hl hd, run_straight ⟨hiss, hin, hl, hd⟩ hp (straight_of_isWrite hw)]

/-- Settles O40: every wire command is the transaction of its frame. -/
theorem wireCommandsStopOutsideARefresh : Obligations.WireCommandsStopOutsideARefresh := by
  intro i s hi hl
  rw [exec_wire i s hi, transact, if_neg hl]

/-! ### The events a step adds to TRACE -/

/-- What an event may be over a geometry: lawful, and the VALUE of a WIDTH or HEIGHT that is OK is the geometry's. -/
structure Event.Allowed (c : Cfg) (e : Event) : Prop where
  lawful : e.lawful = true
  width : ∀ v, e = .resp opWidth .ok v → v = c.w
  height : ∀ v, e = .resp opHeight .ok v → v = c.h

/-- A response of an operation other than WIDTH and HEIGHT is allowed where it is lawful. -/
theorem Event.Allowed.of_op {c : Cfg} {op : OpCode} {st : Status} {v : Half} (hw : op ≠ opWidth) (hh : op ≠ opHeight)
    (h : (Event.resp op st v).lawful = true) : (Event.resp op st v).Allowed c :=
  ⟨h, fun _ he => absurd (Event.resp.inj he).1 hw, fun _ he => absurd (Event.resp.inj he).1 hh⟩

/-- A response of any operation that is not OK is allowed where it is lawful. -/
theorem Event.Allowed.of_status {c : Cfg} {op : OpCode} {st : Status} {v : Half} (hs : st ≠ .ok)
    (h : (Event.resp op st v).lawful = true) : (Event.resp op st v).Allowed c :=
  ⟨h, fun _ he => absurd (Event.resp.inj he).2.1 hs, fun _ he => absurd (Event.resp.inj he).2.1 hs⟩

/-- An event that is no response is allowed. -/
theorem Event.Allowed.of_not_resp {c : Cfg} {e : Event} (h : e.isResp = false) : e.Allowed c := by
  cases e with
  | resp => cases h
  | cfg | wr | rd | dly => exact ⟨rfl, nofun, nofun⟩

/-- GETPX responds 0 or 1 (R302). -/
theorem lawful_pixelValue (b : Byte) (k : Nat) : (Event.resp opGetpx .ok (pixelValue b k)).lawful = true := by
  unfold pixelValue
  split <;> rfl

/-- The events a host word adds (newest first): a response that is allowed after pin calls that are none, or nothing
for a REFRESH that is accepted (R302, R606). -/
theorem HostEffect.events {i : Instr} {s t : State} (h : HostEffect i s t) :
    (i = .refresh ∧ s.life = .ready ∧ t.trace = s.trace) ∨
      ¬(i = .refresh ∧ s.life = .ready) ∧ ∃ op st v calls, t.trace = .resp op st v :: (calls ++ s.trace) ∧
        (Event.resp op st v).Allowed s.cfg ∧ ∀ e ∈ calls, e.isResp = false := by
  cases h with
  | refresh hi hl => exact .inl ⟨hi, hl, rfl⟩
  | conflict op ho hl => exact .inr ⟨by simp [hl], _, _, _, [], rfl, .of_status (by decide) rfl, nofun⟩
  | wrongState op ho hl hp hn =>
    refine .inr ⟨?_, _, _, _, [], rfl, .of_status (by decide) ?_, nofun⟩
    · rintro ⟨rfl, hready⟩
      cases ho
      exact (hp.resolve_left fun h => absurd h.1 (by decide)).2 hready
    · simpa [Event.lawful] using opOf_defined ho hn
  | illegal _ hi | invalidGeometry _ _ hi | setpxOutside _ _ _ hi | getpxOutside _ _ hi =>
    exact .inr ⟨by simp [hi], _, _, _, [], rfl, .of_status (by decide) rfl, nofun⟩
  | init w h hi hl hg =>
    exact .inr ⟨by simp [hi], opInit, .ok, 0, [_, _, _, _, _, _], congrArg (_ :: ·) (construct_trace s w h),
      .of_op (by decide) (by decide) rfl, by simp [Event.isResp]⟩
  | clear hi | setpx _ _ _ hi =>
    exact .inr ⟨by simp [hi], _, _, _, [], rfl, .of_op (by decide) (by decide) rfl, nofun⟩
  | getpx x y hi hl hr ha =>
    exact .inr ⟨by simp [hi], _, _, _, [], rfl, .of_op (by decide) (by decide) (lawful_pixelValue _ _), nofun⟩
  | width hi hl => exact .inr ⟨by simp [hi], _, _, _, [], rfl, ⟨rfl, by simp, by simp [opWidth, opHeight]⟩, nofun⟩
  | height hi hl => exact .inr ⟨by simp [hi], _, _, _, [], rfl, ⟨rfl, by simp [opWidth, opHeight], by simp⟩, nofun⟩
  | teardown hi hl =>
    exact .inr ⟨by simp [hi], opTeardown, .ok, 0, [_, _, _, _, _, _], congrArg (_ :: ·) (release_trace s),
      .of_op (by decide) (by decide) rfl, by simp [Event.isResp]⟩

/-- The trace has grown from an older one by events that are allowed. -/
def GrewBy (c : Cfg) (old new : List Event) : Prop :=
  ∃ evs, new = evs ++ old ∧ ∀ e ∈ evs, e.Allowed c

theorem GrewBy.refl (c : Cfg) (tr : List Event) : GrewBy c tr tr := ⟨[], rfl, nofun⟩

theorem GrewBy.cons {c : Cfg} {old new : List Event} {e : Event} (he : e.Allowed c) (h : GrewBy c old new) :
    GrewBy c old (e :: new) := by
  obtain ⟨evs, rfl, hall⟩ := h
  exact ⟨e :: evs, rfl, List.forall_mem_cons.mpr ⟨he, hall⟩⟩

theorem HostEffect.grewBy {i : Instr} {s t : State} (h : HostEffect i s t) : GrewBy s.cfg s.trace t.trace := by
  rcases h.events with ⟨-, -, htr⟩ | ⟨-, op, st, v, calls, htr, hr, hc⟩
  · rw [htr]
    exact .refl _ _
  · rw [htr]
    exact .cons hr ⟨calls, rfl, fun e he => .of_not_resp (hc e he)⟩

/-- Pin writes and delays are no responses. -/
theorem afterStraight_grewBy (ms : List MicroOp) (s : State) :
    GrewBy s.cfg s.trace (afterStraight ms s).trace := by
  refine ⟨_, rfl, fun e he => .of_not_resp ?_⟩
  rcases mem_eventsOf (List.mem_reverse.mp he) with ⟨p, l, rfl⟩ | ⟨n, rfl⟩ <;> rfl

theorem SeqEffect.grewBy {s t : State} (h : SeqEffect s t) : GrewBy s.cfg s.trace t.trace := by
  have hread : GrewBy s.cfg s.trace (busyRead s).trace := .cons (.of_not_resp rfl) (.refl _ _)
  cases h with
  | straight m => exact afterStraight_grewBy [m] s
  | pass => exact hread
  | poll => exact .cons (.of_not_resp rfl) hread
  | timeout => exact .cons (.of_op (by decide) (by decide) rfl) hread
  | finish => exact .cons (.of_op (by decide) (by decide) rfl) (.refl _ _)

/-- A step adds events that are allowed over its geometry, or it is a power cycle and empties TRACE (R118). -/
theorem step_trace_cases {s t : State} (h : step s = .next t) : t.trace = [] ∨ GrewBy s.cfg s.trace t.trace := by
  cases hi : s.issue with
  | some bytes =>
    obtain ⟨ms, rfl⟩ := step_issue_afterStraight hi h
    exact .inr (afterStraight_grewBy ms { s with issue := none })
  | none =>
    cases step_cases hi h with
    | word w rest hin t he => exact .inr he.grewBy
    | power rest hin => exact .inl rfl
    | sequencer hin hl t he => exact .inr he.grewBy
    | idle hin hl => exact .inr (.refl _ _)

/-- An event a step adds alone is allowed over its geometry. -/
theorem allowed_of_step_trace {s t : State} {e : Event} (h : step s = .next t) (ht : t.trace = e :: s.trace) :
    e.Allowed s.cfg := by
  rcases step_trace_cases h with hnil | ⟨evs, hevs, hall⟩
  · simp [hnil] at ht
  · have hone : evs = [e] := List.append_cancel_right (hevs.symm.trans ht)
    exact hall e (by simp [hone])

/-- Settles O47: every event a step adds is allowed. -/
theorem responsesAreLawful : Obligations.ResponsesAreLawful := by
  refine ⟨fun s t hs hst e he => ?_, fun s t v hst => ⟨fun ht => ?_, fun ht => ?_⟩⟩
  · rcases step_trace_cases hst with hnil | ⟨evs, hevs, hall⟩
    · simp [hnil] at he
    · rw [hevs] at he
      exact (List.mem_append.mp he).elim (fun hm => (hall e hm).lawful) (hs e)
  · exact (allowed_of_step_trace hst ht).width v rfl
  · exact (allowed_of_step_trace hst ht).height v rfl

/-- Settles O48: of the events a host word adds, the response alone is one. -/
theorem oneResponsePerHostWord : Obligations.OneResponsePerHostWord := by
  intro s t w rest hi hin hst
  rw [step_word hi hin] at hst
  rcases (exec_host_cases (decodeHost_isHost w) hst).events with ⟨hd, hl, htr⟩ | ⟨hn, op, st, v, calls, htr, -, hc⟩
  · rw [if_pos ⟨hd, hl⟩, htr]
    rfl
  · have hcalls : calls.countP Event.isResp = 0 := List.countP_eq_zero.mpr fun e he => by simp [hc e he]
    rw [if_neg hn, htr, List.countP_cons, List.countP_append, hcalls]
    simp [Event.isResp]

end Sys2Proof.Machine
end

section
/-! PROOFS. The pixel buffer (40_pixelbuffer.md): what CLEAR, SETPX and GETPX do in READY, the pixel laws, CLEAR as a
loop of byte writes, and the layout of the row stream. -/

namespace Sys2Proof.Machine

variable {s : State} {x y x' y' : Half}

/-! ### The operations in READY, one equation per outcome -/

/-- CLEAR (R404). -/
theorem exec_clear_ready (hl : s.life = .ready) : exec .clear s = .next (respond opClear .ok 0 (fbClear s)) := by
  simp only [exec, execClear, dispatch_ready (by decide : opClear ≠ opInit) _ hl]

/-- A read at an address of FB. -/
theorem memRead_of_lt {a : Nat} (ha : a < fbSize s.cfg) : memRead s a = some (fbRead s.fb a) := if_pos ha

/-- SETPX of a pixel of the panel: its byte is in FB, so it is read and written back with one bit set (R405). -/
theorem exec_setpx_inRange (d : Bool) (hl : s.life = .ready) (hg : GeometryFits s.cfg)
    (hr : inRange s.cfg x y = true) :
    exec (.setpx x y d) s = .next (respond opSetpx .ok 0
      (memWrite s (addr s.cfg x y) (withPixel (fbRead s.fb (addr s.cfg x y)) (bitk y) d))) := by
  simp only [exec, execSetpx, dispatch_ready (by decide : opSetpx ≠ opInit) _ hl, if_pos hr,
    memRead_of_lt (addr_lt hg hr)]

/-- GETPX of a pixel of the panel (R406). -/
theorem exec_getpx_inRange (hl : s.life = .ready) (hg : GeometryFits s.cfg) (hr : inRange s.cfg x y = true) :
    exec (.getpx x y) s = .next (respond opGetpx .ok (if pixelAt s x y then 1 else 0) s) := by
  simp only [exec, execGetpx, dispatch_ready (by decide : opGetpx ≠ opInit) _ hl, if_pos hr,
    memRead_of_lt (addr_lt hg hr)]
  rfl

/-- SETPX outside the panel (R407). -/
theorem exec_setpx_outside (d : Bool) (hl : s.life = .ready) (hr : ¬inRange s.cfg x y = true) :
    exec (.setpx x y d) s = .next (respond opSetpx .outOfRange 0 s) := by
  simp only [exec, execSetpx, dispatch_ready (by decide : opSetpx ≠ opInit) _ hl, if_neg hr, raise]

/-- GETPX outside the panel (R407). -/
theorem exec_getpx_outside (hl : s.life = .ready) (hr : ¬inRange s.cfg x y = true) :
    exec (.getpx x y) s = .next (respond opGetpx .outOfRange 0 s) := by
  simp only [exec, execGetpx, dispatch_ready (by decide : opGetpx ≠ opInit) _ hl, if_neg hr, raise]

/-- A response over a changed FB changes nothing but FB and TRACE. -/
theorem SameButFb.respond_withFb (s : State) (m : Memory) (op : OpCode) (st : Status) (v : Half) :
    SameButFb s (respond op st v { s with fb := m }) :=
  ⟨rfl, rfl, rfl, rfl, rfl, rfl, rfl, rfl, rfl, rfl, rfl, rfl⟩

/-! ### CLEAR -/

/-- Settles O11: FB is empty after CLEAR, and an address not listed holds 0x00. -/
theorem clearMakesEveryByteWhite : Obligations.ClearMakesEveryByteWhite := by
  refine ⟨fun w ho hr => decodeHost_clear hr ho, fun s hl => ?_⟩
  refine ⟨_, exec_clear_ready hl, fun a => rfl, .respond_withFb s [] opClear .ok 0, rfl, fun u hu => ?_⟩
  rw [exec_clear_ready (by simpa using hl)] at hu
  cases hu
  rfl

/-- Writing 0x00 to the addresses of a list takes out the bytes listed there, and changes nothing else. -/
theorem foldl_memWrite_zero (as : List Nat) (s : State) :
    as.foldl (fun t a => memWrite t a 0x00) s = { s with fb := s.fb.filter fun c => c.1 ∉ as } := by
  induction as generalizing s with
  | nil =>
    have hkeep : (s.fb.filter fun c => c.1 ∉ ([] : List Nat)) = s.fb :=
      List.filter_eq_self.mpr fun c _ => decide_eq_true List.not_mem_nil
    rw [List.foldl_nil, hkeep]
  | cons a as ih =>
    have herase : memWrite s a 0x00 = { s with fb := s.fb.filter fun c => c.1 != a } := rfl
    have hboth : ((s.fb.filter fun c => c.1 != a).filter fun c => c.1 ∉ as) = s.fb.filter fun c => c.1 ∉ a :: as := by
      rw [List.filter_filter]
      refine List.filter_congr fun c _ => Bool.eq_iff_iff.mpr ?_
      simp only [Bool.and_eq_true, decide_eq_true_eq, bne_iff_ne, ne_eq, List.mem_cons, not_or, and_comm]
    rw [List.foldl_cons, ih, herase, hboth]

/-- Settles O12: the loop's addresses are all those FB may list. -/
theorem clearIsTheLoopOfByteWrites : Obligations.ClearIsTheLoopOfByteWrites := by
  intro s hbounded
  have hnone : (s.fb.filter fun c => c.1 ∉ List.range (fbSize s.cfg)) = [] :=
    List.filter_eq_nil_iff.mpr fun c hc => by simpa using hbounded c hc
  rw [foldl_memWrite_zero, hnone, fbClear]

/-! ### SETPX and GETPX -/

/-- SETPX's write, bit by bit over the whole memory: one bit of one byte is set, every other bit stays (R405). -/
theorem fbRead_write_withPixel_getLsbD (m : Memory) (a b : Nat) {k j : Nat} (d : Bool) (hk : k < 8) (hj : j < 8) :
    (fbRead (fbWrite m a (withPixel (fbRead m a) k d)) b).getLsbD j =
      if b = a ∧ j = k then d else (fbRead m b).getLsbD j := by
  rw [fbRead_write]
  by_cases hb : b = a
  · subst hb
    simp [withPixel_getLsbD _ _ _ _ hk hj]
  · simp [hb]

/-- Settles O13: the pixel's bit by the bitwise law of the write, the other bytes by read after write. -/
theorem setpxSetsExactlyOnePixel : Obligations.SetpxSetsExactlyOnePixel := by
  refine ⟨fun w ho hr => decodeHost_setpx hr ho, fun s x y d hl hg => ⟨fun hr => ?_, fun hr => ?_⟩⟩
  · refine ⟨_, exec_setpx_inRange d hl hg ((inRange_iff _ _ _).mpr hr), .respond_withFb _ _ _ _ _, rfl,
      fun k hk => ?_, fun a ha => ?_⟩
    · refine (fbRead_write_withPixel_getLsbD s.fb _ _ d (bitk_lt y) hk).trans ?_
      simp [addr, bitk]
    · exact (fbRead_write s.fb _ a _).trans (if_neg ha)
  · exact exec_setpx_outside d hl (mt (inRange_iff _ _ _).mp hr)

/-- Settles O14: the response is the pixel of R402's byte and bit. -/
theorem getpxReadsExactlyOnePixel : Obligations.GetpxReadsExactlyOnePixel := by
  refine ⟨fun w ho hr => decodeHost_getpx hr ho, fun s x y hl hg => ⟨fun hr => ?_, fun hr => ?_⟩⟩
  · exact ⟨_, exec_getpx_inRange hl hg ((inRange_iff _ _ _).mpr hr), rfl⟩
  · exact exec_getpx_outside hl (mt (inRange_iff _ _ _).mp hr)

/-! ### The pixel laws (R411) -/

/-- A response leaves every pixel as it is. -/
@[simp] theorem pixelAt_respond (op : OpCode) (st : Status) (v : Half) (s : State) (x y : Half) :
    pixelAt (respond op st v s) x y = pixelAt s x y := rfl

/-- Every pixel of a cleared FB is white. -/
@[simp] theorem pixelAt_fbClear (s : State) (x y : Half) : pixelAt (fbClear s) x y = false := BitVec.getLsbD_zero

/-- SETPX at the level of pixels: only the pixel set changes, as no two pixels share a byte and a bit. -/
theorem pixelAt_memWrite_withPixel (d : Bool) (hg : GeometryFits s.cfg) (hr : inRange s.cfg x y = true)
    (hr' : inRange s.cfg x' y' = true) :
    pixelAt (memWrite s (addr s.cfg x y) (withPixel (fbRead s.fb (addr s.cfg x y)) (bitk y) d)) x' y' =
      if x' = x ∧ y' = y then d else pixelAt s x' y' := by
  have hsame : (addr s.cfg x' y' = addr s.cfg x y ∧ bitk y' = bitk y) ↔ (x' = x ∧ y' = y) := by
    refine ⟨fun ⟨ha, hb⟩ => pixel_injective hg hr hr' ha hb, ?_⟩
    rintro ⟨rfl, rfl⟩
    exact ⟨rfl, rfl⟩
  refine (fbRead_write_withPixel_getLsbD s.fb _ _ d (bitk_lt y) (bitk_lt y')).trans ?_
  simp only [memWrite_cfg, hsame, pixelAt]

/-- What GETPX of a pixel of the panel responds (R406). -/
theorem getpx_response {u : State} (h : exec (.getpx x y) s = .next u) (hl : s.life = .ready)
    (hg : GeometryFits s.cfg) (hr : inRange s.cfg x y = true) :
    u.trace.head? = some (.resp opGetpx .ok (if pixelAt s x y then 1 else 0)) := by
  rw [exec_getpx_inRange hl hg hr] at h
  cases h
  rfl

/-- Settles O15: GETPX responds the pixel, which SETPX changes only at its own place and CLEAR makes white. -/
theorem pixelLaws : Obligations.PixelLaws := by
  intro s t u x y x' y' d v hl hg hr hr'
  refine ⟨fun ht hu hv => ?_, fun ht hu => ?_⟩
  · rw [exec_setpx_inRange d hl hg hr] at ht
    cases ht
    have hv' : v = if pixelAt s x' y' then 1 else 0 := by simpa using getpx_response hv hl hg hr'
    rw [getpx_response hu hl hg hr', pixelAt_respond, pixelAt_memWrite_withPixel d hg hr hr', hv']
    split <;> rfl
  · rw [exec_clear_ready hl] at ht
    cases ht
    rw [getpx_response hu hl hg hr', pixelAt_respond, pixelAt_fbClear]
    rfl

/-! ### The row stream (R408) -/

/-- In a concatenation of rows of `k` entries each, position `x * k + j` is entry `j` of row `x`. -/
theorem getElem?_flatMap_rows {α β : Type} {f : α → List β} {k : Nat} (hf : ∀ a, (f a).length = k) (as : List α)
    (x : Nat) {j : Nat} (hj : j < k) : (as.flatMap f)[x * k + j]? = as[x]?.bind fun a => (f a)[j]? := by
  induction as generalizing x with
  | nil => simp
  | cons a as ih =>
    rw [List.flatMap_cons]
    cases x with
    | zero => rw [List.getElem?_append_left (by rw [hf]; omega)]; simp
    | succ x =>
      have hindex : (x + 1) * k + j - (f a).length = x * k + j := by rw [hf, Nat.succ_mul]; omega
      rw [List.getElem?_append_right (by rw [hf, Nat.succ_mul]; omega), hindex, ih, List.getElem?_cons_succ]

/-- Settles O37: the stream is one row of 22 bytes per column. -/
theorem rowStreamLayout : Obligations.RowStreamLayout := by
  refine fun c m => ⟨streamRows_length c m, fun x j hx hj => ?_⟩
  refine (getElem?_flatMap_rows (fun _ => by simp [Config.target]) _ x hj).trans ?_
  simp [hx, hj, Config.target, streamByte]

end Sys2Proof.Machine
end

section
/-! PROOFS. The serial link (41_seriallink.md): the shape every frame of a wire command has, what it leaves on the wire,
and that no refresh ends inside one. -/

namespace Sys2Proof.Machine

/-! ### CS is LOW only inside a frame (R458) -/

/-- The line CS after one micro-op is what an open frame says, where it was so before. -/
theorem linesAfter_cs_iff {l : Lines} {ms : List MicroOp} (h : l.cs = some .low ↔ leavesOpen ms = true)
    (m : MicroOp) : (linesAfter l [m]).cs = some .low ↔ leavesOpen (ms ++ [m]) = true := by
  rw [leavesOpen_snoc]
  cases m with
  | w p v =>
    cases p with
    | cs => cases v <;> simp [setLine]
    | din | clk | dc | rst => exact h
  | d t => exact h
  | b iv => exact h

namespace FramesClosed

variable {s t : State}

/-- The statement reads LIFE, the line CS, PROG and UPC alone. -/
theorem congr (h : FramesClosed s) (hlife : t.life = s.life) (hcs : t.lvl.cs = s.lvl.cs) (hprog : t.prog = s.prog)
    (hupc : t.upc = s.upc) : FramesClosed t :=
  ⟨by rw [hlife, hcs]; exact h.outside, by rw [hlife, hcs, hprog, hupc]; exact h.inside⟩

/-- With no refresh running only CS counts. -/
theorem of_notRefreshing (hl : t.life ≠ .refreshing) (hcs : t.lvl.cs ≠ some .low) : FramesClosed t :=
  ⟨fun _ => hcs, fun h => absurd h hl⟩

/-- A refresh starts with no frame open. -/
theorem startRefresh (h : FramesClosed s) (hl : s.life ≠ .refreshing) : FramesClosed (startRefresh s) :=
  ⟨fun hn => absurd rfl hn, fun _ => iff_of_false (h.outside hl) (by simp [leavesOpen])⟩

theorem hostChange {i : Instr} (h : FramesClosed s) (hc : HostChange i s t) : FramesClosed t := by
  cases hc with
  | respond | conflict | clear | setpx => exact h.congr rfl rfl rfl rfl
  | init x y hi hl hg => exact .of_notRefreshing (by simp) (by simp [Lines.unknown])
  | refresh hi hl => exact h.startRefresh (by simp [hl])
  | teardown hi hl => exact .of_notRefreshing (by simp) (by simp [Lines.unknown])

/-- Where the executed part of the program leaves no frame open, CS is not LOW. -/
theorem cs_ne_low (h : FramesClosed s) (hl : s.life = .refreshing)
    (hc : leavesOpen (s.prog.take s.upc) = false) : s.lvl.cs ≠ some .low := by
  rw [Ne, h.inside hl, hc]
  exact Bool.false_ne_true

/-- A micro-op that is executed moves CS as it moves the frame. -/
theorem advance (h : FramesClosed s) (hl : s.life = .refreshing) {m : MicroOp} (hp : s.prog[s.upc]? = some m)
    (hlife : t.life = s.life) (hcs : t.lvl.cs = (linesAfter s.lvl [m]).cs) (hprog : t.prog = s.prog)
    (hupc : t.upc = s.upc + 1) : FramesClosed t := by
  refine ⟨fun hn => absurd (hlife.trans hl) hn, fun _ => ?_⟩
  rw [hcs, hprog, hupc, take_succ_of hp]
  exact linesAfter_cs_iff (h.inside hl) m

/-- The sequencer: a refresh ends at a barrier or at the end of the program, and neither lies inside a frame. -/
theorem seqEffect (h : FramesClosed s) (hl : s.life = .refreshing) (hp : s.prog = program s.cfg s.fb)
    (hs : SeqEffect s t) : FramesClosed t := by
  obtain ⟨hend, hbarrier⟩ := program_closed s.cfg s.fb
  rw [← hp] at hend hbarrier
  cases hs with
  | straight m hm _ _ => exact h.advance hl hm rfl rfl rfl rfl
  | pass iv hb _ => exact h.advance hl hb rfl rfl rfl rfl
  | poll iv _ _ _ => exact h.congr rfl rfl rfl rfl
  | timeout iv hb _ _ => exact .of_notRefreshing (by simp) (h.cs_ne_low hl (hbarrier _ _ hb))
  | finish _ hu => exact .of_notRefreshing (by simp) (h.cs_ne_low hl (by rwa [hu, List.take_length]))

end FramesClosed

/-- Settles O46: no barrier of the program, and not its end, lies inside a frame. -/
theorem stepKeepsFramesClosed : Obligations.StepKeepsFramesClosed := by
  intro s t hinv h hst
  cases step_cases hinv.noIssue hst with
  | word w rest hin t he => exact (h.congr (t := { s with inputs := rest }) rfl rfl rfl rfl).hostChange he.change
  | power rest hin => exact .of_notRefreshing (by simp) (by simp [Lines.unknown])
  | sequencer hin hl t he =>
    exact (h.congr (t := { s with inputs := s.inputs.tail }) rfl rfl rfl rfl).seqEffect hl (hinv.running hl).1 he
  | idle hin hl => exact h.congr rfl rfl rfl rfl

/-! ### The receiver reads the frames back (R461) -/

/-- Bit `k` of a frame byte's wire byte is the inverse of bit `7 - k` (R461). -/
theorem wireOf_getLsbD (b : Byte) {k : Nat} (hk : k < 8) : (wireOf b).getLsbD k = !b.getLsbD (7 - k) := by
  rw [wireOf, bitrev8, BitVec.getLsbD_reverse, BitVec.getMsbD_eq_getLsbD]
  simp [hk]
  omega

theorem not_bitrev8_wireOf (b : Byte) : ~~~(bitrev8 (wireOf b)) = b := by
  simp [wireOf, bitrev8]

/-- Settles O32: the receiver's reading of both kinds of frame, and the wire transform bit by bit. -/
theorem receiverReadsTheFrames : Obligations.ReceiverReadsTheFrames :=
  ⟨fun r op d h => observe_send op d r h, fun r op rows h => observe_streamFrame op rows r h,
    fun b => ⟨fun _ hk => wireOf_getLsbD b hk, not_bitrev8_wireOf b⟩⟩

/-! ### The one shape of every frame -/

/-- What stands between the two writes of CS of a frame whose data bytes have the levels `levels`: the opcode's bit cells
with DC LOW, then each data byte's with DC HIGH (R456, R457). -/
def frameBody (levels : Byte → List Level) (op : Byte) (d : List Byte) : List MicroOp :=
  .w .dc .low :: (levelsMsb op).flatMap bitCell ++ d.flatMap fun b => .w .dc .high :: (levels b).flatMap bitCell

theorem send_eq_body (op : Byte) (d : List Byte) :
    send op d = .w .cs .low :: frameBody levelsMsb op d ++ [.w .cs .high] := by
  simp [send, frameHead, frameBody, msbFirst_eq]

theorem streamFrame_eq_body (op : Byte) (d : List Byte) :
    streamFrame op d = .w .cs .low :: frameBody levelsInv op d ++ [.w .cs .high] := by
  simp [streamFrame, frameHead, frameBody, msbFirst_eq, lsbInverted_eq]

/-- Every wire command's frame has this shape. -/
theorem frameOf_eq_body (i : Instr) (c : Cfg) (m : Memory) (h : i.isHost = false) :
    ∃ levels op d, frameOf i c m = .w .cs .low :: frameBody levels op d ++ [.w .cs .high] := by
  rcases frameOf_cases i c m h with ⟨op, d, he, -⟩ | ⟨op, he⟩
  · exact ⟨levelsMsb, op, d, he.trans (send_eq_body op d)⟩
  · exact ⟨levelsInv, op, streamRows c m, he.trans (streamFrame_eq_body op _)⟩

/-- A host word has no frame. -/
theorem frameOf_host (i : Instr) (c : Cfg) (m : Memory) (h : i.isHost = true) : frameOf i c m = [] := by
  cases i with
  | init | clear | setpx | getpx | width | height | refresh | teardown | reservedHostWord => rfl
  | drvOutCtrl | deepSleep | dataEntry | swReset | masterAct | updSeq | writeRamPri | writeRamSec | ramXWin | ramYWin
  | ramXPtr | ramYPtr => cases h

/-! ### Brackets (R451, R458) -/

/-- Inside a frame the lines written are DC, DIN and CLK. -/
theorem mem_frameBody {levels : Byte → List Level} {op : Byte} {d : List Byte} {m : MicroOp}
    (h : m ∈ frameBody levels op d) : ∃ l, m = .w .dc l ∨ m = .w .din l ∨ m = .w .clk l := by
  rcases List.mem_append.mp h with hhead | hdata
  · rcases List.mem_cons.mp hhead with rfl | hm
    · exact ⟨.low, .inl rfl⟩
    · exact (mem_cells hm).imp fun _ => .inr
  · obtain ⟨b, -, hb⟩ := List.mem_flatMap.mp hdata
    rcases List.mem_cons.mp hb with rfl | hm
    · exact ⟨.high, .inl rfl⟩
    · exact (mem_cells hm).imp fun _ => .inr

/-- Settles O33: CS is written at the ends of a frame, and its body writes DC, DIN and CLK. -/
theorem framesBracketThemselves : Obligations.FramesBracketThemselves := by
  intro i c m hi
  obtain ⟨levels, op, d, he⟩ := frameOf_eq_body i c m hi
  refine ⟨frameBody levels op d, he, fun _ hm => ?_⟩
  obtain ⟨l, rfl | rfl | rfl⟩ := mem_frameBody hm
  · exact ⟨.dc, l, rfl, by decide, by decide⟩
  · exact ⟨.din, l, rfl, by decide, by decide⟩
  · exact ⟨.clk, l, rfl, by decide, by decide⟩

/-! ### Bit cells (R453, R809) -/

/-- Each fall of CLK comes right after a write of DIN and right before a rise of CLK. -/
def CellsOrdered (ms : List MicroOp) : Prop :=
  ∀ k, ms[k]? = some (.w .clk .low) → ∃ j v, k = j + 1 ∧ ms[j]? = some (.w .din v) ∧ ms[k + 1]? = some (.w .clk .high)

namespace CellsOrdered

theorem nil : CellsOrdered [] := by
  intro k h
  cases h

/-- One list after the other: no bit cell lies across the cut. -/
theorem append {as bs : List MicroOp} (ha : CellsOrdered as) (hb : CellsOrdered bs) : CellsOrdered (as ++ bs) := by
  intro k h
  by_cases hk : k < as.length
  · rw [List.getElem?_append_left hk] at h
    obtain ⟨j, v, rfl, hdin, hrise⟩ := ha k h
    have hnext := (List.getElem?_eq_some_iff.mp hrise).1
    exact ⟨j, v, rfl, by rwa [List.getElem?_append_left (by omega)], by rwa [List.getElem?_append_left hnext]⟩
  · obtain ⟨n, rfl⟩ := Nat.exists_eq_add_of_le (Nat.le_of_not_lt hk)
    rw [List.getElem?_append_right (by omega), Nat.add_sub_cancel_left] at h
    obtain ⟨j, v, rfl, hdin, hrise⟩ := hb n h
    refine ⟨as.length + j, v, by omega, ?_, ?_⟩
    · rwa [List.getElem?_append_right (by omega), Nat.add_sub_cancel_left]
    · rwa [Nat.add_assoc, List.getElem?_append_right (by omega), Nat.add_sub_cancel_left]

theorem flatMap {α : Type} {f : α → List MicroOp} (hf : ∀ a, CellsOrdered (f a)) (as : List α) :
    CellsOrdered (as.flatMap f) := by
  induction as with
  | nil => exact nil
  | cons a as ih => rw [List.flatMap_cons]; exact (hf a).append ih

/-- A micro-op that is no fall of CLK. -/
theorem single {m : MicroOp} (h : m ≠ .w .clk .low) : CellsOrdered [m] := by
  intro k hk
  simp [List.getElem?_singleton, h] at hk

theorem bitCell (v : Level) : CellsOrdered (bitCell v) := by
  intro k h
  match k with
  | 1 => exact ⟨0, v, rfl, rfl, rfl⟩
  | 0 | 2 | _ + 3 => simp [Machine.bitCell] at h

theorem frameBody (levels : Byte → List Level) (op : Byte) (d : List Byte) :
    CellsOrdered (frameBody levels op d) := by
  have dcThenCells (l : Level) (vs : List Level) : CellsOrdered (.w .dc l :: vs.flatMap Machine.bitCell) :=
    (single (m := .w .dc l) nofun).append (flatMap bitCell vs)
  exact (dcThenCells .low (levelsMsb op)).append (flatMap (fun b => dcThenCells .high (levels b)) d)

end CellsOrdered

/-- Settles O34: a frame is made of bit cells and of writes of CS and DC. -/
theorem bitCellsKeepTheirOrder : Obligations.BitCellsKeepTheirOrder := by
  intro i c m
  suffices h : CellsOrdered (frameOf i c m) from h
  cases hi : i.isHost with
  | true => rw [frameOf_host i c m hi]; exact .nil
  | false =>
    obtain ⟨levels, op, d, he⟩ := frameOf_eq_body i c m hi
    rw [he]
    exact ((CellsOrdered.single (m := .w .cs .low) nofun).append (.frameBody levels op d)).append (.single nofun)

/-! ### DC and clock edges (R462) -/

/-- A write of DC. -/
def isDcWrite (m : MicroOp) : Bool := m == .w .dc .low || m == .w .dc .high

theorem filter_isDcWrite_cells (vs : List Level) : (vs.flatMap bitCell).filter isDcWrite = [] := by
  refine List.filter_eq_nil_iff.mpr fun m hm => ?_
  obtain ⟨l, rfl | rfl⟩ := mem_cells hm <;> simp [isDcWrite]

theorem count_rises_cells (vs : List Level) : (vs.flatMap bitCell).count (.w .clk .high) = vs.length := by
  induction vs with
  | nil => rfl
  | cons v vs ih => rw [List.flatMap_cons, List.count_append, ih]; simp [bitCell, Nat.add_comm]

/-- In a frame's body DC is written LOW before the opcode and HIGH before each data byte. -/
theorem filter_isDcWrite_frameBody (levels : Byte → List Level) (op : Byte) (d : List Byte) :
    (frameBody levels op d).filter isDcWrite = .w .dc .low :: List.replicate d.length (.w .dc .high) := by
  have bytes : (d.flatMap fun b => .w .dc .high :: (levels b).flatMap bitCell).filter isDcWrite =
      List.replicate d.length (.w .dc .high) := by
    induction d with
    | nil => rfl
    | cons b d ih =>
      rw [List.flatMap_cons, List.filter_append, ih, List.filter_cons_of_pos rfl, filter_isDcWrite_cells]
      rfl
  rw [frameBody, List.filter_append, List.filter_cons_of_pos rfl, filter_isDcWrite_cells, bytes]
  rfl

/-- In a frame's body CLK rises 8 times for the opcode and 8 times for each data byte. -/
theorem count_rises_frameBody {levels : Byte → List Level} (h8 : ∀ b, (levels b).length = 8) (op : Byte)
    (d : List Byte) : (frameBody levels op d).count (.w .clk .high) = 8 * (1 + d.length) := by
  have dcThenCells (l : Level) (vs : List Level) :
      (MicroOp.w .dc l :: vs.flatMap bitCell).count (.w .clk .high) = vs.length := by
    rw [List.count_cons_of_ne (by simp), count_rises_cells]
  have bytes : (d.flatMap fun b => .w .dc .high :: (levels b).flatMap bitCell).count (.w .clk .high) =
      8 * d.length := by
    induction d with
    | nil => rfl
    | cons b d ih => rw [List.flatMap_cons, List.count_append, ih, dcThenCells, h8, List.length_cons]; omega
  have hop : (levelsMsb op).length = 8 := rfl
  rw [frameBody, List.count_append, dcThenCells, bytes, hop]
  omega

/-- The two writes of CS around a frame's body are neither writes of DC nor rises of CLK. -/
theorem filter_isDcWrite_bracket (ms : List MicroOp) :
    (MicroOp.w .cs .low :: ms ++ [MicroOp.w .cs .high]).filter isDcWrite = ms.filter isDcWrite := by
  simp [isDcWrite]

theorem count_rises_bracket (ms : List MicroOp) :
    (MicroOp.w .cs .low :: ms ++ [MicroOp.w .cs .high]).count (.w .clk .high) = ms.count (.w .clk .high) := by
  simp

/-- Settles O35: both kinds of frame have the one body, with 8 levels for each byte. -/
theorem dcAndClockEdgesOfAFrame : Obligations.DcAndClockEdgesOfAFrame := by
  intro op d
  rw [send_eq_body, streamFrame_eq_body, count_rises_bracket, count_rises_bracket]
  exact ⟨(filter_isDcWrite_bracket _).trans (filter_isDcWrite_frameBody levelsMsb op d),
    (filter_isDcWrite_bracket _).trans (filter_isDcWrite_frameBody levelsInv op d),
    count_rises_frameBody (fun _ => rfl) op d, count_rises_frameBody (fun _ => rfl) op d⟩

/-! ### Sizes (R456, R457, R572) -/

theorem filter_not_isWrite_of_writes {ms : List MicroOp} (h : ms.all MicroOp.isWrite = true) :
    ms.filter (fun op => !op.isWrite) = [] := by
  refine List.filter_eq_nil_iff.mpr fun m hm => ?_
  simp [List.all_eq_true.mp h m hm]

/-- The program frame by frame (R551): the idle setup, the reset pulse, the sixteen frames and the four barriers. -/
theorem program_eq_frames (c : Cfg) (m : Memory) :
    program c m =
      idle ++ [.w .rst .high, .w .rst .low, .d 10, .w .rst .high, .d 10] ++ send 0x12 [] ++ [.b 10] ++
        send 0x01 [0x27, 0x01, 0x00] ++ [.b 10] ++ send 0x11 [0x01] ++ send 0x44 [0x00, 0x18] ++
        send 0x45 [0x27, 0x01, 0x00, 0x00] ++ send 0x22 [0xB1] ++ send 0x20 [] ++ [.b 50] ++
        send 0x4E [0x00] ++ send 0x4F [0x27, 0x01] ++ streamFrame 0x24 (streamRows c m) ++
        send 0x4E [0x00] ++ send 0x4F [0x27, 0x01] ++ streamFrame 0x26 (streamRows c m) ++
        send 0x22 [0xC7] ++ send 0x20 [] ++ [.b 50] ++ send 0x10 [0x01] := by
  simp [program_parts, part1, part3, part4, stepIdleSetup, stepPanelReset, stepDriverOutput, stepDataEntry,
    stepRamWindow, stepUpdateSetup, stepFrameTransfer, stepUpdateTrigger, stepSleep, Config.target,
    Profile.planeOpcode]

/-- The program is pin writes, the two delays of the reset pulse and the four barriers. -/
theorem program_filter_not_isWrite (c : Cfg) (m : Memory) :
    (program c m).filter (fun op => !op.isWrite) = [.d 10, .d 10, .b 10, .b 10, .b 50, .b 50] := by
  have hsend (op : Byte) (d : List Byte) := filter_not_isWrite_of_writes (send_writes op d)
  have hstream (op : Byte) (rows : List Byte) := filter_not_isWrite_of_writes (streamFrame_writes op rows)
  simp [program_eq_frames, idle, hsend, hstream]

theorem program_length (c : Cfg) (m : Memory) : (program c m).length = 920 + 50 * (c.w.toNat * 22) := by
  simp [program_eq_frames, idle]
  omega

/-- Settles O36: all but six micro-ops of the program are pin writes. -/
theorem sizesOfFramesAndProgram : Obligations.SizesOfFramesAndProgram := by
  refine ⟨fun op d => ⟨send_length op d, streamFrame_length op d⟩, fun c m => ?_⟩
  have hlen := program_length c m
  have hother := program_filter_not_isWrite c m
  have hwrites : (program c m).countP MicroOp.isWrite = 914 + 50 * (c.w.toNat * 22) := by
    have hsplit := List.length_eq_countP_add_countP MicroOp.isWrite (l := program c m)
    have hsix : (program c m).countP (fun op => !op.isWrite) = 6 := by
      rw [List.countP_eq_length_filter, hother]
      rfl
    simp only [Bool.not_eq_true, Bool.decide_eq_false, hsix, hlen] at hsplit
    omega
  exact ⟨hlen, hwrites, hother, fun hw => by rw [hlen, hw]; rfl⟩

/-! ### Wire commands complete (R456, R457) -/

/-- A wire command in a refresh with the pins claimed emits its frame. -/
theorem exec_wire_claimed {i : Instr} {s : State} (hi : i.isHost = false) (hl : s.life = .refreshing)
    (hd : s.dir = Dirs.claimed) : exec i s = .next (afterStraight (frameOf i s.cfg s.fb) s) := by
  rw [exec_wire i s hi, transact_writes (frameOf_writes i s.cfg s.fb) hl hd]

theorem SameButWires.afterStraight (ms : List MicroOp) (s : State) : SameButWires s (afterStraight ms s) :=
  ⟨rfl, rfl, rfl, rfl, rfl, rfl, rfl, rfl, rfl, rfl, rfl⟩

/-- The frame of each `send` command is SEND of its opcode and payload (R308). -/
theorem frameOf_sendCommand {i : Instr} {op : Byte} {d : List Byte} (h : (i, op, d) ∈ sendCommands) (c : Cfg)
    (m : Memory) : i.isHost = false ∧ frameOf i c m = send op d := by
  simp only [sendCommands, List.mem_cons, List.not_mem_nil, or_false, Prod.mk.injEq] at h
  rcases h with h | h | h | h | h | h | h | h | h | h | h
  all_goals
    obtain ⟨rfl, rfl, rfl⟩ := h
    exact ⟨rfl, rfl⟩

/-- The levels of `linesAfter_send` without a case split on the payload for DIN. -/
theorem linesAfter_send_getLastD (l : Lines) (op : Byte) (d : List Byte) :
    linesAfter l (send op d) = ⟨some (lvlOf ((d.getLastD op).getLsbD 0)), some .high, some .high,
      some (if d = [] then .low else .high), l.rst⟩ := by
  rw [linesAfter_send]
  cases d with
  | nil => rfl
  | cons b d => simp [List.getLast?_cons]

/-- Settles O38: the command emits its SEND frame's pin writes, which leave the levels stated. -/
theorem sendCommandsEmitTheirFrames : Obligations.SendCommandsEmitTheirFrames := by
  intro i op d s hmem hl hd
  obtain ⟨hi, hf⟩ := frameOf_sendCommand hmem s.cfg s.fb
  refine ⟨_, exec_wire_claimed hi hl hd, .afterStraight _ s, ?_⟩
  rw [hf, afterStraight_upc, send_length, afterStraight_trace, afterStraight_lvl]
  exact ⟨rfl, rfl, linesAfter_send_getLastD s.lvl op d⟩

/-- The frame of each frame write is STREAMFRAME of its opcode over the row stream (R308, R309). -/
theorem frameOf_frameWrite {i : Instr} {op : Byte}
    (h : (i, op) ∈ [(Instr.writeRamPri, (0x24 : Byte)), (.writeRamSec, 0x26)]) (c : Cfg) (m : Memory) :
    i.isHost = false ∧ frameOf i c m = streamFrame op (streamRows c m) := by
  simp only [List.mem_cons, List.not_mem_nil, or_false, Prod.mk.injEq] at h
  rcases h with ⟨rfl, rfl⟩ | ⟨rfl, rfl⟩
  · exact ⟨rfl, rfl⟩
  · exact ⟨rfl, rfl⟩

/-- The row stream is empty only with no column. -/
theorem streamRows_eq_nil_iff (c : Cfg) (m : Memory) : streamRows c m = [] ↔ c.w = 0 := by
  rw [← List.length_eq_zero_iff, streamRows_length, ← BitVec.toNat_inj, show (0 : Half).toNat = 0 from rfl]
  omega

/-- Settles O39: the command emits its STREAMFRAME's pin writes, and the row stream has a last byte unless W = 0. -/
theorem frameWritesEmitTheRowStream : Obligations.FrameWritesEmitTheRowStream := by
  intro i op s hmem hl hd
  obtain ⟨hi, hf⟩ := frameOf_frameWrite hmem s.cfg s.fb
  refine ⟨_, exec_wire_claimed hi hl hd, .afterStraight _ s, ?_⟩
  rw [hf, afterStraight_upc, streamFrame_length, streamRows_length, afterStraight_trace, afterStraight_lvl,
    linesAfter_streamFrame]
  refine ⟨rfl, rfl, ?_⟩
  cases hlast : (streamRows s.cfg s.fb).getLast? with
  | none =>
    have hw : s.cfg.w = 0 := (streamRows_eq_nil_iff _ _).mp (List.getLast?_eq_none_iff.mp hlast)
    exact ⟨rfl, rfl, rfl, by rw [if_pos hw], rfl⟩
  | some b =>
    have hw : s.cfg.w ≠ 0 := fun h0 => by simp [(streamRows_eq_nil_iff s.cfg s.fb).mpr h0] at hlast
    exact ⟨rfl, rfl, rfl, by rw [if_neg hw], rfl⟩

end Sys2Proof.Machine
end

section
/-! PROOFS. The refresh sequencer (43_sequencer.md): one micro-op, the ready barrier, and a whole refresh as its legs
from barrier to barrier. -/

namespace Sys2Proof.Machine

/-! ### One sequencer step (R567, R568) -/

theorem lineOf_setLine (l : Lines) (p q : OutPin) (v : Option Level) :
    lineOf (setLine l p v) q = if q = p then v else lineOf l q := by
  cases p <;> cases q <;> rfl

/-- Settles O21: both micro-ops are lists of one micro-op without a barrier. -/
theorem pinWriteAndDelayMicroOps : Obligations.PinWriteAndDelayMicroOps := by
  intro s hd
  constructor
  · intro p l hp
    refine ⟨afterStraight [.w p l] s, ?_, .afterStraight _ s, rfl, rfl, fun q => lineOf_setLine s.lvl p q (some l)⟩
    rw [sequencerStep_at hp, microStep_straight rfl hd]
  · intro ms hp
    rw [sequencerStep_at hp, microStep_straight rfl hd]
    rfl

theorem sequencerStep_end {s : State} (h : s.upc = s.prog.length) : sequencerStep s = .next (endRefresh .ok s) := by
  rw [sequencerStep, List.getElem?_eq_none (Nat.le_of_eq h.symm)]
  exact if_pos h

/-- Settles O27: no micro-op stands at |PROG|. -/
theorem endOfProgramRespondsOk : Obligations.EndOfProgramRespondsOk :=
  fun _ h => sequencerStep_end h

/-! ### The ready barrier (R556, R569, R573) -/

theorem timedOut_iff (s : State) : timedOut s = true ↔ ∃ T, s.cfg.busyTimeout = some T ∧ T ≤ s.elapsed := by
  unfold timedOut
  cases s.cfg.busyTimeout <;> simp

/-- Settles O22: a barrier reads the scheduled level, and the timeout decides a HIGH one. -/
theorem readyBarrierReadsThenDecides : Obligations.ReadyBarrierReadsThenDecides := by
  intro s iv l rest hd hp hb
  have hn := nextBusy_cons hb
  rw [sequencerStep_at hp, microStep]
  refine ⟨?_, ?_, ?_⟩
  · rintro rfl
    rw [barrier_low hd hn, busyRead_cons hb]
    rfl
  · rintro rfl T hT hle
    rw [barrier_timeout hd hn ((timedOut_iff s).mpr ⟨T, hT, hle⟩), busyRead_cons hb]
    rfl
  · rintro rfl hlt
    have ht : timedOut s = false := by
      rw [Bool.eq_false_iff, Ne, timedOut_iff]
      rintro ⟨T, hT, hle⟩
      exact absurd hle (Nat.not_le.mpr (hlt T hT))
    rw [barrier_high hd hn ht, busyRead_cons hb]
    rfl

/-- Settles O24: n polls, then the step that reads LOW. -/
theorem barrierPassesAfterHighReads : Obligations.BarrierPassesAfterHighReads := by
  intro s iv n rest hi hin hl hd hp hT hb
  rw [run_add (run_polls ⟨hi, hin, hl, hd⟩ hp hb hT)]
  exact run_one (step_barrier_low ⟨hi, hin, hl, hd⟩ hp rfl)

/-- ELAPSED reaches T with the ceil(T / iv)-th poll and not before (R569). -/
theorem ceil_le_iff_le_polls {T iv k : Nat} (hiv : 0 < iv) : (T + iv - 1) / iv ≤ k ↔ T ≤ k * iv := by
  rw [← Nat.lt_succ_iff, Nat.div_lt_iff_lt_mul hiv, Nat.succ_mul]
  omega

theorem polls_lt_of_lt_ceil {T iv k : Nat} (hiv : 0 < iv) (hk : k < (T + iv - 1) / iv) : k * iv < T :=
  Nat.lt_of_not_le fun hle => Nat.not_le.mpr hk ((ceil_le_iff_le_polls hiv).mpr hle)

/-- Settles O25: ceil(T / iv) polls, then the step that reads HIGH at the timeout. -/
theorem barrierTimesOut : Obligations.BarrierTimesOut := by
  intro s iv T rest hi hin hl hd hT hp hiv he hb
  have hpolls : ∀ T', s.cfg.busyTimeout = some T' → ∀ k, k < (T + iv - 1) / iv → s.elapsed + k * iv < T' := by
    intro T' hT' k hk
    obtain rfl : T = T' := Option.some.inj (hT.symm.trans hT')
    rw [he, Nat.zero_add]
    exact polls_lt_of_lt_ceil hiv hk
  have hreached : T ≤ s.elapsed + (T + iv - 1) / iv * iv := by
    rw [he, Nat.zero_add]
    exact (ceil_le_iff_le_polls hiv).mp (Nat.le_refl _)
  rw [List.replicate_succ', List.append_assoc] at hb
  rw [run_add (run_polls ⟨hi, hin, hl, hd⟩ hp hb hpolls)]
  exact run_one (step_barrier_timeout ⟨hi, hin, hl, hd⟩ hp rfl hT hreached)

/-- Settles O26: without a timeout a barrier polls as long as BUSY reads HIGH. -/
theorem stuckBusyHangs : Obligations.StuckBusyHangs := by
  intro s iv n rest hi hin hl hd hT hp hb
  exact run_polls ⟨hi, hin, hl, hd⟩ hp hb (by simp [hT])

/-! ### Legs: from barrier to barrier -/

/-- A stretch without a barrier and the barrier `B(iv)` behind it, which reads HIGH `highs` times and then LOW. -/
structure Leg where
  ops : List MicroOp
  iv : Nat
  highs : Nat

/-- The micro-ops of a leg. -/
def Leg.program (g : Leg) : List MicroOp := g.ops ++ [.b g.iv]

/-- The BUSY levels a leg reads. -/
def Leg.levels (g : Leg) : List Level := List.replicate g.highs .high ++ [.low]

/-- A leg that no timeout ends: from ELAPSED 0 no HIGH read comes at the timeout. -/
def Leg.InTime (c : Cfg) (g : Leg) : Prop := ∀ T, c.busyTimeout = some T → ∀ k, k < g.highs → k * g.iv < T

/-- The state after a stretch of the program whose barriers have passed, with the BUSY levels left and TRACE. -/
def afterStretch (ms : List MicroOp) (br : List Level) (tr : List Event) (s : State) : State :=
  { s with lvl := linesAfter s.lvl ms, upc := s.upc + ms.length, busyIn := br, trace := tr }

@[simp] theorem afterStretch_lvl (ms : List MicroOp) (br : List Level) (tr : List Event) (s : State) :
    (afterStretch ms br tr s).lvl = linesAfter s.lvl ms := rfl

@[simp] theorem afterStretch_trace (ms : List MicroOp) (br : List Level) (tr : List Event) (s : State) :
    (afterStretch ms br tr s).trace = tr := rfl

theorem Undisturbed.afterStretch {s : State} (h : Undisturbed s) (ms : List MicroOp) (br : List Level)
    (tr : List Event) : Undisturbed (afterStretch ms br tr s) := ⟨h.issue, h.inputs, h.life, h.dir⟩

theorem afterStraight_afterStretch (a b : List MicroOp) (br : List Level) (tr : List Event) (s : State) :
    afterStraight b (afterStretch a br tr s) = afterStretch (a ++ b) br ((b.flatMap eventsOf).reverse ++ tr) s := by
  simp [afterStraight, afterStretch, Nat.add_assoc]

/-- A leg first, then a stretch. -/
theorem afterStretch_afterLeg (g : Leg) (ms : List MicroOp) (br br' : List Level) (tr : List Event) {s : State}
    (he : s.elapsed = 0) :
    afterStretch ms br' tr (afterLeg g.ops g.iv g.highs br s) = afterStretch (g.program ++ ms) br' tr s := by
  simp [afterStretch, afterLeg, Leg.program, he]
  omega

/-- Legs one after the other: they pass their barriers, of which the receiver sees nothing. -/
theorem run_legs {gs : List Leg} {rest : List MicroOp} {br : List Level} {s : State} (h : Undisturbed s)
    (he : s.elapsed = 0) (hp : s.prog.drop s.upc = gs.flatMap Leg.program ++ rest)
    (hs : ∀ g ∈ gs, g.ops.all MicroOp.straight = true) (hT : ∀ g ∈ gs, g.InTime s.cfg)
    (hb : s.busyIn = gs.flatMap Leg.levels ++ br) :
    ∃ tr, runs ((gs.flatMap Leg.program).length + (gs.map Leg.highs).sum) s =
        .next (afterStretch (gs.flatMap Leg.program) br tr s) ∧
      seen tr = observeAll (seen s.trace) ((gs.flatMap Leg.program).flatMap eventsOf) := by
  induction gs generalizing s with
  | nil =>
    obtain rfl : s.busyIn = br := hb
    exact ⟨s.trace, rfl, rfl⟩
  | cons g gs ih =>
    simp only [List.flatMap_cons, Leg.program, Leg.levels, List.append_assoc, List.cons_append, List.nil_append]
      at hp hb
    obtain ⟨hs1, hs⟩ := List.forall_mem_cons.mp hs
    obtain ⟨hT1, hT⟩ := List.forall_mem_cons.mp hT
    have hleg := run_leg h hp hs1 hb (by simpa only [he, Nat.zero_add, Leg.InTime] using hT1)
    obtain ⟨tr, hrun, hseen⟩ := ih (h.afterLeg _ _ _ _) rfl (drop_afterLeg hp) hs hT rfl
    have hn : ((g :: gs).flatMap Leg.program).length + ((g :: gs).map Leg.highs).sum =
        (g.ops.length + (g.highs + 1)) + ((gs.flatMap Leg.program).length + (gs.map Leg.highs).sum) := by
      simp [Leg.program]
      omega
    refine ⟨tr, ?_, ?_⟩
    · rw [hn, run_add hleg, hrun, afterStretch_afterLeg _ _ _ _ _ he, List.flatMap_cons]
    · rw [hseen, seen_leg]
      simp [Leg.program, eventsOf]

/-- A whole program from its start, its legs and then a stretch without a barrier: it ends with the response OK
(R568, R570). -/
theorem run_to_end {gs : List Leg} {last : List MicroOp} {br : List Level} {s : State} (h : Undisturbed s)
    (hu : s.upc = 0) (he : s.elapsed = 0) (hp : s.prog = gs.flatMap Leg.program ++ last)
    (hs : ∀ g ∈ gs, g.ops.all MicroOp.straight = true) (hlast : last.all MicroOp.straight = true)
    (hT : ∀ g ∈ gs, g.InTime s.cfg) (hb : s.busyIn = gs.flatMap Leg.levels ++ br) :
    ∃ tr, runs (s.prog.length + (gs.map Leg.highs).sum + 1) s =
        .next (endRefresh .ok (afterStretch s.prog br tr s)) ∧
      seen tr = observeAll (seen s.trace) (s.prog.flatMap eventsOf) := by
  obtain ⟨tr, hlegs, hseen⟩ := run_legs h he (by rw [hu, List.drop_zero, hp]) hs hT hb
  have htail := run_straight (rest := []) (h.afterStretch (gs.flatMap Leg.program) br tr)
    (by simp [afterStretch, hu, hp]) hlast
  rw [afterStraight_afterStretch, ← hp] at htail
  refine ⟨(last.flatMap eventsOf).reverse ++ tr, ?_, ?_⟩
  · have hend := sequencerStep_end (s := afterStretch s.prog br ((last.flatMap eventsOf).reverse ++ tr) s)
      (by simp [afterStretch, hu])
    rw [← step_undisturbed (h.afterStretch _ _ _)] at hend
    have hn : s.prog.length + (gs.map Leg.highs).sum + 1 =
        ((gs.flatMap Leg.program).length + (gs.map Leg.highs).sum) + (last.length + 1) := by
      rw [hp, List.length_append]
      omega
    rw [hn, run_add hlegs, run_add htail, run_one hend]
  · rw [seen_append, List.reverse_reverse, hseen, ← observeAll_append, ← List.flatMap_append, ← hp]

/-! ### A whole refresh on the wire (R551, R460) -/

/-- Whatever the levels were, the program leaves all five lines HIGH (R568): RST since the reset pulse, the others by
the last frame. -/
theorem linesAfter_program (l : Lines) (c : Cfg) (m : Memory) :
    linesAfter l (program c m) = ⟨some .high, some .high, some .high, some .high, some .high⟩ := by
  have hrst (l : Lines) (op : Byte) (d : List Byte) : (linesAfter l (streamFrame op d)).rst = l.rst := by
    rw [linesAfter_streamFrame]
    split <;> rfl
  simp [program_eq_frames, linesAfter_send_getLastD, hrst, setLine, lvlOf]

/-- A frame's micro-ops and the bytes a receiver reads of them. -/
abbrev ReadFrame := List MicroOp × WireFrame

/-- A receiver outside a frame reads the micro-ops as that one frame and is outside a frame again. -/
def ReadFrame.Closes (f : ReadFrame) : Prop :=
  ∀ r : Receiver, r.lines.cs ≠ some .low →
    (observeAll r (f.1.flatMap eventsOf)).frames = f.2 :: r.frames ∧
      (observeAll r (f.1.flatMap eventsOf)).lines.cs ≠ some .low

/-- A SEND frame and its bytes. -/
def sendRead (op : Byte) (d : List Byte) : ReadFrame :=
  (send op d, ⟨.command, some op⟩ :: d.map fun b => ⟨.data, some b⟩)

/-- A STREAMFRAME frame and its bytes, each inverted and reversed (R461). -/
def streamRead (op : Byte) (rows : List Byte) : ReadFrame :=
  (streamFrame op rows, ⟨.command, some op⟩ :: rows.map fun b => ⟨.data, some (wireOf b)⟩)

theorem sendRead_closes (op : Byte) (d : List Byte) : (sendRead op d).Closes := closes_send op d

theorem streamRead_closes (op : Byte) (rows : List Byte) : (streamRead op rows).Closes := closes_stream op rows

/-- The sixteen frames of a refresh, as they are sent and as they are read. -/
def refreshReads (rows : List Byte) : List ReadFrame :=
  [sendRead 0x12 [], sendRead 0x01 [0x27, 0x01, 0x00], sendRead 0x11 [0x01], sendRead 0x44 [0x00, 0x18],
   sendRead 0x45 [0x27, 0x01, 0x00, 0x00], sendRead 0x22 [0xB1], sendRead 0x20 [], sendRead 0x4E [0x00],
   sendRead 0x4F [0x27, 0x01], streamRead 0x24 rows, sendRead 0x4E [0x00], sendRead 0x4F [0x27, 0x01],
   streamRead 0x26 rows, sendRead 0x22 [0xC7], sendRead 0x20 [], sendRead 0x10 [0x01]]

theorem refreshReads_close (rows : List Byte) : ∀ f ∈ refreshReads rows, f.Closes := by
  simp [refreshReads, sendRead_closes, streamRead_closes]

theorem refreshReads_read (rows : List Byte) : (refreshReads rows).map (·.2) = refreshLog rows := by
  simp [refreshReads, refreshLog, sendRead, streamRead]

/-- The idle setup and the reset pulse. -/
def setup : List MicroOp := idle ++ [.w .rst .high, .w .rst .low, .d 10, .w .rst .high, .d 10]

/-- The events of the program but for its barriers: the setup, then the frames. -/
theorem program_events (c : Cfg) (m : Memory) :
    (program c m).flatMap eventsOf =
      setup.flatMap eventsOf ++ ((refreshReads (streamRows c m)).flatMap (·.1)).flatMap eventsOf := by
  simp [program_eq_frames, setup, refreshReads, sendRead, streamRead, eventsOf]

/-- The setup opens no frame and leaves CS HIGH. -/
theorem observe_setup (r : Receiver) (h : r.lines.cs ≠ some .low) :
    (observeAll r (setup.flatMap eventsOf)).frames = r.frames ∧
      (observeAll r (setup.flatMap eventsOf)).lines.cs ≠ some .low := by
  simp [setup, idle, eventsOf, observe, setLine, h]

/-- The receiver reads the sixteen frames of the program in order. -/
theorem observe_program (c : Cfg) (m : Memory) (r : Receiver) (h : r.lines.cs ≠ some .low) :
    (observeAll r ((program c m).flatMap eventsOf)).frames = (refreshLog (streamRows c m)).reverse ++ r.frames := by
  obtain ⟨hframes, hcs⟩ := observe_setup r h
  obtain ⟨hread, -⟩ := observe_sends _ _ hcs (refreshReads_close (streamRows c m))
  rw [program_events, observeAll_append, hread, refreshReads_read, hframes]

/-! ### A whole refresh (R551, R568, R570, R815) -/

/-- The program up to its last barrier (R551), barrier by barrier. -/
def refreshLegs (rows : List Byte) (n1 n2 n3 n4 : Nat) : List Leg :=
  [⟨part1, 10, n1⟩, ⟨stepDriverOutput, 10, n2⟩, ⟨part3, 50, n3⟩, ⟨part4 rows, 50, n4⟩]

theorem program_eq_legs (c : Cfg) (m : Memory) (n1 n2 n3 n4 : Nat) :
    program c m = (refreshLegs (streamRows c m) n1 n2 n3 n4).flatMap Leg.program ++ stepSleep := by
  simp [program_parts, refreshLegs, Leg.program]

theorem refreshLegs_straight (rows : List Byte) (n1 n2 n3 n4 : Nat) :
    ∀ g ∈ refreshLegs rows n1 n2 n3 n4, g.ops.all MicroOp.straight = true := by
  have hsend (op : Byte) (d : List Byte) := straight_of_isWrite (send_writes op d)
  have hstream (op : Byte) := straight_of_isWrite (streamFrame_writes op rows)
  simp [refreshLegs, part1, stepIdleSetup, idle, stepPanelReset, stepDriverOutput, part3, stepDataEntry, stepRamWindow,
    stepUpdateSetup, part4, stepFrameTransfer, stepUpdateTrigger, Config.target, -List.all_eq_true, hsend, hstream]

theorem refreshLegs_inTime {c : Cfg} {n1 n2 n3 n4 : Nat} (rows : List Byte)
    (h : ∀ T, c.busyTimeout = some T →
      n1 ≤ (T + 9) / 10 ∧ n2 ≤ (T + 9) / 10 ∧ n3 ≤ (T + 49) / 50 ∧ n4 ≤ (T + 49) / 50) :
    ∀ g ∈ refreshLegs rows n1 n2 n3 n4, g.InTime c := by
  simp only [refreshLegs, List.forall_mem_cons, Leg.InTime]
  refine ⟨?_, ?_, ?_, ?_, nofun⟩
  all_goals
    intro T hT k hk
    obtain ⟨h1, h2, h3, h4⟩ := h T hT
    omega

theorem refreshLegs_sum_highs (rows : List Byte) (n1 n2 n3 n4 : Nat) :
    ((refreshLegs rows n1 n2 n3 n4).map Leg.highs).sum = n1 + n2 + n3 + n4 := by
  simp [refreshLegs]
  omega

/-- In READY a REFRESH starts the program (R606). -/
theorem exec_refresh_ready {s : State} (hl : s.life = .ready) : exec .refresh s = .next (startRefresh s) := by
  rw [exec, execRefresh, dispatch_ready (by decide) _ hl]

theorem transactionLog_eq_seen (tr : List Event) : transactionLog tr = (seen tr).frames.reverse := rfl

/-- A response is no transaction. -/
theorem transactionLog_resp (op : OpCode) (st : Status) (v : Half) (tr : List Event) :
    transactionLog (.resp op st v :: tr) = transactionLog tr := by
  rw [transactionLog_eq_seen, seen_cons]
  rfl

/-- Settles O29: the REFRESH starts the program, its four legs and the last frame run to the end, and the receiver sees
the program's frames. -/
theorem wholeRefreshEmitsTheTransactionLog : Obligations.WholeRefreshEmitsTheTransactionLog := by
  intro s w n1 n2 n3 n4 rest hinv hacc hclosed hl hT hin hw hb
  have hstart : step s = .next (startRefresh { s with inputs := [] }) := by
    rw [step_word hinv.noIssue hin, hw]
    exact exec_refresh_ready hl
  have hdir : s.dir = Dirs.claimed := by simpa [hl, Life.claims] using hinv.directions
  have hcs : (seen s.trace).lines.cs ≠ some .low := by
    rw [← hacc.lvl_seen]
    exact hclosed.outside (by simp [hl])
  obtain ⟨tr, hrun, hseen⟩ := run_to_end (br := rest) (s := startRefresh { s with inputs := [] })
    ⟨hinv.noIssue, rfl, rfl, hdir⟩ rfl rfl (program_eq_legs s.cfg s.fb n1 n2 n3 n4) (refreshLegs_straight _ _ _ _ _)
    (by decide) (refreshLegs_inTime _ hT) (by simpa [refreshLegs, Leg.levels] using hb)
  simp only [startRefresh_prog, startRefresh_trace, refreshLegs_sum_highs] at hrun hseen
  have hn : (program s.cfg s.fb).length + n1 + n2 + n3 + n4 + 2 =
      ((program s.cfg s.fb).length + (n1 + n2 + n3 + n4) + 1) + 1 := by omega
  rw [hn, run_succ _ hstart]
  refine ⟨_, hrun, ?_, rfl, rfl, rfl, rfl, rfl, ?_, rfl, rfl, rfl, rfl, rfl⟩
  · rw [endRefresh_trace, afterStretch_trace, transactionLog_resp, transactionLog_eq_seen, hseen,
      observe_program _ _ _ hcs, List.reverse_append, List.reverse_reverse, transactionLog_eq_seen]
  · rw [endRefresh_lvl, afterStretch_lvl, linesAfter_program]

end Sys2Proof.Machine
end

section
/-! PROOFS. The host interface (44_host_interface.md): what a step runs, and what INIT, WIDTH, HEIGHT, REFRESH and
TEARDOWN do where they are performed. -/

namespace Sys2Proof.Machine

variable {s : State} {w h : Half}

/-! ### INIT before construction, one equation per outcome (R603) -/

theorem exec_init_accepted (hl : s.life = .unbound) (hg : geometryOk s.cfg.fbCapacity w h = true) :
    exec (.init w h) s = .next (respond opInit .ok 0 (construct w h s)) := by
  simp only [exec, execInit, dispatch_unbound _ hl, if_pos hg]

theorem exec_init_refused (hl : s.life = .unbound) (hg : ¬geometryOk s.cfg.fbCapacity w h = true) :
    exec (.init w h) s = .next (respond opInit .invalidGeometry 0 s) := by
  simp only [exec, execInit, dispatch_unbound _ hl, if_neg hg, raise]

/-- INIT enters READY exactly when its checks pass: a refusal leaves the block unbound. -/
theorem exec_init_enters_ready_iff (hl : s.life = .unbound) :
    (∃ t, exec (.init w h) s = .next t ∧ t.life = .ready) ↔ geometryOk s.cfg.fbCapacity w h = true := by
  by_cases hg : geometryOk s.cfg.fbCapacity w h = true
  · exact iff_of_true ⟨_, exec_init_accepted hl hg, construct_life s w h⟩ hg
  · refine iff_of_false ?_ hg
    rintro ⟨t, ht, hready⟩
    rw [exec_init_refused hl hg] at ht
    cases ht
    rw [respond_life, hl] at hready
    cases hready

/-- FB has one byte for each column and group of eight rows of the geometry INIT stores (R103, R401). -/
theorem fbSize_constructed (c : Cfg) (w h : Half) :
    fbSize { c with w := w, h := h, hb := groupsOf h } = w.toNat * (h.toNat / 8) := by
  rw [fbSize, groupsOf_toNat]

/-- Settles O6: R603's checks are those of `geometryOk`, and a byte of FB reads as the byte drawn for its address. -/
theorem initConstructsOrRefuses : Obligations.InitConstructsOrRefuses := by
  refine ⟨fun w ho hr => decodeHost_init hr ho, fun s w h hl => ⟨fun hg => ?_, fun hg => ?_⟩⟩
  · have hread (a : Nat) (ha : a < w.toNat * (h.toNat / 8)) :
        fbRead (construct w h s).fb a = Config.fbInit s.draws a := by
      rw [construct_fb, fbSize_constructed, fbRead_draw ha]
    exact ⟨_, exec_init_accepted hl ((geometryOk_iff _ _ _).mpr hg), construct_cfg s w h, groupsOf_toNat h,
      construct_life s w h, hread, construct_dir s w h, construct_lvl s w h, construct_upc s w h, construct_prog s w h,
      construct_elapsed s w h, construct_faultHostConflict s w h, congrArg _ (construct_trace s w h),
      construct_inputs s w h, construct_busyIn s w h, construct_draws s w h, construct_issue s w h⟩
  · exact exec_init_refused hl (mt (geometryOk_iff _ _ _).mp hg)

/-- Settles O7: `1 + h / 8 ≤ 22` bounds a multiple of 8 by 168, and a height that is not 0 is at least 8. -/
theorem initAcceptsHeightsUpTo168 : Obligations.InitAcceptsHeightsUpTo168 := by
  intro s w h hl hw hcap
  have hh : h ≠ 0 ↔ h.toNat ≠ 0 := BitVec.toNat_ne_iff_ne.symm
  have hspan : Config.target.offsetY + h.toNat / 8 ≤ Config.target.virtualY ↔ 1 + h.toNat / 8 ≤ 22 := Iff.rfl
  rw [exec_init_enters_ready_iff hl, geometryOk_iff, hh, hspan]
  constructor
  · rintro ⟨-, hpos, hmod, hle, -⟩
    omega
  · rintro ⟨hlo, hhi, hmod⟩
    exact ⟨hw, by omega, hmod, by omega, hcap⟩

/-! ### WIDTH, HEIGHT, REFRESH, TEARDOWN in READY -/

theorem exec_width_ready (hl : s.life = .ready) : exec .width s = .next (respond opWidth .ok s.cfg.w s) := by
  rw [exec, execWidth, dispatch_ready (by decide) _ hl]

theorem exec_height_ready (hl : s.life = .ready) : exec .height s = .next (respond opHeight .ok s.cfg.h s) := by
  rw [exec, execHeight, dispatch_ready (by decide) _ hl]

theorem exec_teardown_ready (hl : s.life = .ready) :
    exec .teardown s = .next (respond opTeardown .ok 0 (release s)) := by
  rw [exec, execTeardown, dispatch_ready (by decide) _ hl]

/-- Settles O8: in READY each is its response. -/
theorem widthAndHeightRespondTheGeometry : Obligations.WidthAndHeightRespondTheGeometry :=
  ⟨fun _ ho hr => decodeHost_width hr ho, fun _ ho hr => decodeHost_height hr ho,
    fun _ hl => ⟨exec_width_ready hl, exec_height_ready hl⟩⟩

/-- Settles O9: in READY it is the start of the program. -/
theorem refreshStartsTheProgram : Obligations.RefreshStartsTheProgram :=
  ⟨fun _ ho hr => decodeHost_refresh hr ho, fun _ hl => exec_refresh_ready hl⟩

/-- TEARDOWN's effect as one update: the six pins in R607's order, and what else R118's table names. -/
theorem release_eq (s : State) :
    release s = { s with
      dir := Dirs.unclaimed, lvl := Lines.unknown, life := .released, upc := 0, prog := [], elapsed := 0
      trace := [.cfg .busy .unconfigured, .cfg (.out .rst) .unconfigured, .cfg (.out .dc) .unconfigured,
        .cfg (.out .cs) .unconfigured, .cfg (.out .clk) .unconfigured, .cfg (.out .din) .unconfigured] ++ s.trace } := by
  simp [release, releasePins, outPins, pinConfigure, record, setDir, sequencerIdle, Dirs.unclaimed]

/-- Settles O10: in READY it is the release of the pins and a response. -/
theorem teardownReleasesThePins : Obligations.TeardownReleasesThePins := by
  refine ⟨fun w ho hr => decodeHost_teardown hr ho, fun s hl => ?_⟩
  rw [exec_teardown_ready hl, release_eq]
  rfl

/-! ### What a step runs -/

/-- Settles O4: the latch first, then the word at the host port, then the block left to itself. -/
theorem stepRunsTheDecodedInstruction : Obligations.StepRunsTheDecodedInstruction := by
  refine ⟨fun s w rest i hi hin hd => ?_, fun s bytes i hi hd => step_issue hi hd, fun s hi hin => ?_⟩
  · have hdecoded : decodeHost w = i := Except.ok.inj hd
    rw [step_word hi hin, hdecoded]
  · rw [step_quiet hi hin, advance]
    exact ⟨fun hl => if_pos hl, fun hl => if_neg hl⟩

end Sys2Proof.Machine
end

section
/-! PROOFS. The block's refusals (60_exceptions.md): an operation outside its lifecycle, a word of a refresh and what it
leaves undisturbed, and that no step stops. -/

namespace Sys2Proof.Machine

variable {i : Instr} {op : OpCode} {s t : State}

/-! ### Refusals -/

/-- Settles O17: every defined operation goes through the dispatch. -/
theorem lifecycleRefusals : Obligations.LifecycleRefusals := by
  intro i op s ho hn hl hp
  obtain ⟨body, hbody⟩ := exec_dispatch ho hn
  exact (hbody s).trans (dispatch_wrongState body hl hp)

/-- During a refresh a host word is refused, whichever it is (R708). -/
theorem exec_refreshing (ho : opOf i = some op) (hl : s.life = .refreshing) :
    exec i s = .next (respond op .hostConflict 0 (setHostConflict s)) := by
  by_cases hr : ∃ w, i = .reservedHostWord w
  · obtain ⟨w, rfl⟩ := hr
    cases ho
    exact exec_reserved_conflict w hl
  · obtain ⟨body, hbody⟩ := exec_dispatch ho fun w hw => hr ⟨w, hw⟩
    exact (hbody s).trans (dispatch_refreshing op body hl)

/-- Settles O18: the dispatch and the reserved word begin with the check for a refresh. -/
theorem wordsDuringARefreshAreRefused : Obligations.WordsDuringARefreshAreRefused :=
  fun _ _ _ ho hl => exec_refreshing ho hl

/-- A host word that adds a response other than OK and nothing else to TRACE does just that: what changes the state
responds OK, or nothing for a REFRESH (R702, R713). -/
theorem HostEffect.refusal {st : Status} {v : Half} (h : HostEffect i s t)
    (htr : t.trace = .resp op st v :: s.trace) (hst : st ≠ .ok) :
    v = 0 ∧ t = { s with
      faultHostConflict := s.faultHostConflict || decide (st = .hostConflict)
      trace := .resp op st 0 :: s.trace } := by
  cases h with
  | conflict | wrongState | illegal | invalidGeometry | setpxOutside | getpxOutside =>
    cases htr
    exact ⟨rfl, by simp [respond, record, setHostConflict]⟩
  | init | clear | setpx | getpx | width | height | teardown =>
    obtain ⟨-, hok, -⟩ := Event.resp.inj (List.cons.inj htr).1
    exact absurd hok.symm hst
  | refresh => exact absurd htr.symm (List.cons_ne_self _ _)

/-- Settles O20: by the effects a host word can have. -/
theorem refusalsArePrecise : Obligations.RefusalsArePrecise :=
  fun _ _ _ _ _ _ hi hst htr hne => (exec_host_cases hi hst).refusal htr hne

/-! ### BUSY reads -/

/-- The events of a list of micro-ops are no BUSY reads. -/
theorem countP_isRead_eventsOf (ms : List MicroOp) : (ms.flatMap eventsOf).reverse.countP Event.isRead = 0 := by
  refine List.countP_eq_zero.mpr fun e he => ?_
  rcases mem_eventsOf (List.mem_reverse.mp he) with ⟨p, l, rfl⟩ | ⟨n, rfl⟩ <;> simp [Event.isRead]

/-- A host word adds no BUSY read. -/
theorem HostChange.reads_eq (h : HostChange i s t) :
    t.trace.countP Event.isRead = s.trace.countP Event.isRead := by
  cases h with
  | respond | conflict | init | clear | setpx | refresh | teardown => simp [Event.isRead]

/-- A sequencer step adds no BUSY read, or its micro-op is a barrier (R808). -/
theorem SeqEffect.reads_cases (h : SeqEffect s t) :
    t.trace.countP Event.isRead = s.trace.countP Event.isRead ∨ ∃ iv, s.prog[s.upc]? = some (.b iv) := by
  cases h with
  | straight m => exact .inl (by rw [afterStraight_trace, List.countP_append, countP_isRead_eventsOf, Nat.zero_add])
  | finish => exact .inl (by simp [Event.isRead])
  | pass iv hp | poll iv hp | timeout iv hp => exact .inr ⟨iv, hp⟩

/-- Settles O55: of the effects of a step only a barrier of the sequencer adds a read. -/
theorem busyIsReadOnlyAtBarriers : Obligations.BusyIsReadOnlyAtBarriers := by
  intro s t hi hst hlt
  cases step_cases hi hst with
  | word w rest hin t he => exact absurd he.change.reads_eq (Nat.ne_of_gt hlt)
  | power rest hin => simp at hlt
  | sequencer hin hl t he => exact ⟨hl, he.reads_cases.resolve_left (Nat.ne_of_gt hlt)⟩
  | idle hin hl => exact absurd hlt (Nat.lt_irrefl _)

/-! ### No step stops -/

/-- An operation other than INIT goes on if it does in READY: elsewhere it is refused. -/
theorem exec_next_of_ready (ho : opOf i = some op) (hop : op ≠ opInit) (hn : ∀ w, i ≠ .reservedHostWord w)
    (h : s.life = .ready → ∃ t, exec i s = .next t) : ∃ t, exec i s = .next t := by
  by_cases hl : s.life = .refreshing
  · exact ⟨_, exec_refreshing ho hl⟩
  · by_cases hready : s.life = .ready
    · exact h hready
    · exact ⟨_, lifecycleRefusals i op s ho hn hl (.inr ⟨hop, hready⟩)⟩

/-- INIT goes on everywhere (R603, R609). -/
theorem exec_init_next (w h : Half) (s : State) : ∃ t, exec (.init w h) s = .next t := by
  by_cases hl : s.life = .refreshing
  · exact ⟨_, exec_refreshing rfl hl⟩
  · by_cases hu : s.life = .unbound
    · by_cases hg : geometryOk s.cfg.fbCapacity w h = true
      · exact ⟨_, exec_init_accepted hu hg⟩
      · exact ⟨_, exec_init_refused hu hg⟩
    · exact ⟨_, lifecycleRefusals _ _ s rfl nofun hl (.inl ⟨rfl, hu⟩)⟩

/-- A reserved word is refused everywhere (R608). -/
theorem exec_reserved_next (w : HostWord) (s : State) : ∃ t, exec (.reservedHostWord w) s = .next t := by
  by_cases hl : s.life = .refreshing
  · exact ⟨_, exec_reserved_conflict w hl⟩
  · exact ⟨_, exec_reserved_illegal w hl⟩

/-- A host word does not stop where READY means a geometry that INIT accepted: then every pixel has its byte in FB
(R402, R603). -/
theorem exec_host_next (hi : i.isHost = true) (hg : s.life = .ready → GeometryFits s.cfg) :
    ∃ t, exec i s = .next t := by
  cases i with
  | init w h => exact exec_init_next w h s
  | reservedHostWord w => exact exec_reserved_next w s
  | clear => exact exec_next_of_ready rfl (by decide) nofun fun hl => ⟨_, exec_clear_ready hl⟩
  | setpx x y d =>
    refine exec_next_of_ready rfl (by decide) nofun fun hl => ?_
    by_cases hr : inRange s.cfg x y = true
    · exact ⟨_, exec_setpx_inRange d hl (hg hl) hr⟩
    · exact ⟨_, exec_setpx_outside d hl hr⟩
  | getpx x y =>
    refine exec_next_of_ready rfl (by decide) nofun fun hl => ?_
    by_cases hr : inRange s.cfg x y = true
    · exact ⟨_, exec_getpx_inRange hl (hg hl) hr⟩
    · exact ⟨_, exec_getpx_outside hl hr⟩
  | width => exact exec_next_of_ready rfl (by decide) nofun fun hl => ⟨_, exec_width_ready hl⟩
  | height => exact exec_next_of_ready rfl (by decide) nofun fun hl => ⟨_, exec_height_ready hl⟩
  | refresh => exact exec_next_of_ready rfl (by decide) nofun fun hl => ⟨_, exec_refresh_ready hl⟩
  | teardown => exact exec_next_of_ready rfl (by decide) nofun fun hl => ⟨_, exec_teardown_ready hl⟩
  | drvOutCtrl | deepSleep | dataEntry | swReset | masterAct | updSeq | writeRamPri | writeRamSec | ramXWin | ramYWin
  | ramXPtr | ramYPtr => cases hi

/-- With the pins claimed a barrier passes, polls or times out (R556). -/
theorem barrier_next (iv : Nat) (hd : s.dir = Dirs.claimed) : ∃ t, barrier iv s = .next t := by
  cases hb : nextBusy s with
  | low => exact ⟨_, barrier_low hd hb⟩
  | high =>
    cases ht : timedOut s with
    | false => exact ⟨_, barrier_high hd hb ht⟩
    | true => exact ⟨_, barrier_timeout hd hb ht⟩

/-- With the pins claimed every micro-op goes on (R567). -/
theorem microStep_next (m : MicroOp) (hd : s.dir = Dirs.claimed) : ∃ t, microStep m s = .next t := by
  cases m with
  | w p l => exact ⟨_, microStep_straight rfl hd⟩
  | d ms => exact ⟨_, microStep_straight rfl hd⟩
  | b iv => exact barrier_next iv hd

/-- With the pins claimed and UPC within PROG the sequencer goes on (R574). -/
theorem sequencerStep_next (hd : s.dir = Dirs.claimed) (hu : s.upc ≤ s.prog.length) :
    ∃ t, sequencerStep s = .next t := by
  cases hp : s.prog[s.upc]? with
  | some m =>
    rw [sequencerStep_at hp]
    exact microStep_next m hd
  | none => exact ⟨_, sequencerStep_end (Nat.le_antisymm hu (List.getElem?_eq_none_iff.mp hp))⟩

/-- The invariant lets the block go on by itself. -/
theorem Inv.advance_next (h : Inv s) : ∃ t, Machine.advance s = .next t := by
  by_cases hl : s.life = .refreshing
  · have hd : s.dir = Dirs.claimed := by simpa [hl, Life.claims] using h.directions
    rw [Machine.advance, if_pos hl]
    exact sequencerStep_next hd (h.running hl).2
  · exact ⟨s, if_neg hl⟩

/-- Settles O44: by the input the step takes. -/
theorem stepNeverStops : Obligations.StepNeverStops := by
  intro s h
  have hquiet (hin : s.inputs = [] ∨ s.inputs.head? = some .quiet) : ∃ t, step s = .next t := by
    rw [step_quiet h.noIssue hin]
    exact (h.withInputs _).advance_next
  cases hin : s.inputs with
  | nil => exact hquiet (.inl hin)
  | cons x rest =>
    cases x with
    | quiet => exact hquiet (.inr (by simp [hin]))
    | powerCycle => exact ⟨_, step_power h.noIssue hin⟩
    | word w =>
      rw [step_word h.noIssue hin]
      have hgeo (hl : s.life = .ready) : GeometryFits s.cfg := h.geometry (by simp [hl])
      exact exec_host_next (decodeHost_isHost w) hgeo

/-! ### Words mixed into a refresh -/

/-- A run of a refresh with the inputs it takes, as it goes without the words: each input comes while the refresh runs,
a quiet one is a step of the sequencer, a word none. -/
inductive RefreshRun : List Input → State → State → Prop where
  | done (s : State) : RefreshRun [] s s
  | word (w : HostWord) {rest : List Input} {s t : State} (hl : s.life = .refreshing) (h : RefreshRun rest s t) :
      RefreshRun (.word w :: rest) s t
  | quiet {rest : List Input} {s r t : State} (hl : s.life = .refreshing) (hs : sequencerStep s = .next r)
      (h : RefreshRun rest r t) : RefreshRun (.quiet :: rest) s t

/-- How TRACE with words mixed in relates to the state without them: HOST_CONFLICT responses are added, but none after
the end of the refresh. -/
structure MixedTrace (s : State) (tr : List Event) : Prop where
  others : tr.filter (fun e => !e.isConflict) = s.trace.filter (fun e => !e.isConflict)
  ended : s.life ≠ .refreshing → tr.head? = s.trace.head?

theorem SeqEffect.issue_eq (h : SeqEffect s t) : t.issue = s.issue := by cases h <;> rfl

theorem SeqEffect.inputs_eq (h : SeqEffect s t) : t.inputs = s.inputs := by cases h <;> rfl

/-- Every sequencer step adds an event to TRACE. -/
theorem SeqEffect.trace_length_lt (h : SeqEffect s t) : s.trace.length < t.trace.length := by
  cases h with
  | straight m hp hm =>
    cases m with
    | w p l => exact Nat.lt_succ_self _
    | d ms => exact Nat.lt_succ_self _
    | b iv => cases hm
  | pass | finish => exact Nat.lt_succ_self _
  | poll | timeout => exact Nat.lt_succ_of_lt (Nat.lt_succ_self _)

theorem RefreshRun.inputs_eq {ins : List Input} (h : RefreshRun ins s t) : t.inputs = s.inputs := by
  induction h with
  | done => rfl
  | word _ _ _ ih => exact ih
  | quiet _ hs _ ih => exact ih.trans (sequencerStep_cases hs).inputs_eq

/-- A word taken during a refresh (R708). -/
theorem MixedTrace.word {tr : List Event} (h : MixedTrace s tr) (hl : s.life = .refreshing) (op : OpCode) :
    MixedTrace s (.resp op .hostConflict 0 :: tr) :=
  ⟨by simpa [Event.isConflict] using h.others, absurd hl⟩

/-- A step of the sequencer adds the same events to both traces. -/
theorem MixedTrace.append {r : State} {tr evs : List Event} (h : MixedTrace s tr) (hr : r.trace = evs ++ s.trace)
    (hne : evs ≠ []) : MixedTrace r (evs ++ tr) := by
  refine ⟨by rw [hr, List.filter_append, List.filter_append, h.others], fun _ => ?_⟩
  obtain ⟨e, rest, rfl⟩ := List.exists_cons_of_ne_nil hne
  rw [hr]
  rfl

/-- A quiet input during a refresh is a step of the sequencer, under any FAULT and TRACE. -/
theorem step_reframe_quiet (hi : s.issue = none) (hl : s.life = .refreshing) (f : Bool) (tr : List Event)
    (rest : List Input) : step (reframe s f tr (.quiet :: rest)) = sequencerStep (reframe s f tr rest) := by
  simp [step, reframe, hi, advance, hl]

/-- A word during a refresh is refused, under any FAULT and TRACE. -/
theorem step_reframe_word (hi : s.issue = none) (hl : s.life = .refreshing) (f : Bool) (tr : List Event)
    (w : HostWord) (rest : List Input) :
    step (reframe s f tr (.word w :: rest)) =
      .next (reframe s true (.resp w.op .hostConflict 0 :: tr) rest) := by
  rw [step_word (s := reframe s f tr (.word w :: rest)) hi rfl]
  exact exec_refreshing (opOf_decodeHost w) hl

/-- The run with the words: TRACE and FAULT apart, it comes to the same state, all inputs taken (R708). -/
theorem RefreshRun.runs_mixed {ins : List Input} (h : RefreshRun ins s t) (hi : s.issue = none) (f : Bool)
    {tr : List Event} (htr : MixedTrace s tr) :
    ∃ tr', runs ins.length (reframe s f tr ins) = .next (reframe t (f || ins.any (· != .quiet)) tr' []) ∧
      MixedTrace t tr' := by
  induction h generalizing f tr with
  | done s => exact ⟨tr, by simp [run_zero], htr⟩
  | @word w rest s t hl _ ih =>
    have hw : (Input.word w != .quiet) = true := rfl
    obtain ⟨tr', hrun, htr'⟩ := ih hi true (htr.word hl w.op)
    refine ⟨tr', ?_, htr'⟩
    rw [List.length_cons, run_succ _ (step_reframe_word hi hl f tr w rest), hrun]
    simp [hw]
  | @quiet rest s r t hl hs _ ih =>
    obtain ⟨evs, hr, -, -, -, hsame⟩ := sequencerStep_reframe hs
    have hne : evs ≠ [] := by
      rintro rfl
      exact Nat.ne_of_lt (sequencerStep_cases hs).trace_length_lt (congrArg List.length hr).symm
    obtain ⟨tr', hrun, htr'⟩ := ih ((sequencerStep_cases hs).issue_eq.trans hi) f (htr.append hr hne)
    refine ⟨tr', ?_, htr'⟩
    rw [List.length_cons, run_succ _ ((step_reframe_quiet hi hl f tr rest).trans (hsame f tr rest)), hrun]
    simp

/-- The steps of a run without its words. -/
abbrev quietSteps (ins : List Input) : Nat := (ins.filter (· == .quiet)).length

/-- The refresh runs before its inputs are taken: a quiet one is a step of it to come, words alone leave it running. -/
theorem refreshing_before_inputs {ins : List Input}
    (hbefore : ∀ n, n < quietSteps ins → ∃ r, runs n s = .next r ∧ r.life = .refreshing)
    (hrun : runs (quietSteps ins) s = .next t) (hend : t.life = .refreshing ∨ ins.getLast? = some .quiet) :
    s.life = .refreshing := by
  by_cases hq : 0 < quietSteps ins
  · obtain ⟨r, hr, hl⟩ := hbefore 0 hq
    cases hr
    exact hl
  · have hnone : ins.filter (· == .quiet) = [] := List.length_eq_zero_iff.mp (Nat.eq_zero_of_not_pos hq)
    have hlast : ins.getLast? ≠ some .quiet := fun h =>
      List.filter_eq_nil_iff.mp hnone _ (List.mem_of_getLast? h) rfl
    rw [quietSteps, hnone] at hrun
    cases hrun
    exact hend.resolve_right hlast

/-- The run without the words, step by step. -/
theorem RefreshRun.of_runs {ins : List Input} (hi : s.issue = none) (hin : s.inputs = [])
    (hpc : ∀ x ∈ ins, x ≠ .powerCycle)
    (hbefore : ∀ n, n < quietSteps ins → ∃ r, runs n s = .next r ∧ r.life = .refreshing)
    (hrun : runs (quietSteps ins) s = .next t)
    (hend : ins ≠ [] → t.life = .refreshing ∨ ins.getLast? = some .quiet) : RefreshRun ins s t := by
  induction ins generalizing s with
  | nil =>
    cases hrun
    exact .done _
  | cons x rest ih =>
    have hl : s.life = .refreshing :=
      refreshing_before_inputs hbefore hrun (hend (List.cons_ne_nil _ _))
    have hpc' : ∀ y ∈ rest, y ≠ .powerCycle := fun y hy => hpc y (List.mem_cons_of_mem _ hy)
    have hend' (hne : rest ≠ []) : t.life = .refreshing ∨ rest.getLast? = some .quiet := by
      rw [← List.getLast?_cons_of_ne_nil (x := x) hne]
      exact hend (List.cons_ne_nil _ _)
    cases x with
    | powerCycle => exact absurd rfl (hpc _ List.mem_cons_self)
    | word w => exact .word w hl (ih hi hin hpc' hbefore hrun hend')
    | quiet =>
      have hstep : step s = sequencerStep s := by simp [step, hi, hin, advance, hl]
      have hq : quietSteps (.quiet :: rest) = quietSteps rest + 1 := rfl
      rw [hq, run_succ_eq, hstep] at hrun
      cases hs : sequencerStep s with
      | fault e => simp [hs] at hrun
      | refused e => simp [hs] at hrun
      | next r =>
        rw [hs, andThen_next] at hrun
        have heff := sequencerStep_cases hs
        refine .quiet hl hs (ih (heff.issue_eq.trans hi) (heff.inputs_eq.trans hin) hpc' (fun n hn => ?_) hrun hend')
        rw [← run_succ n (hstep.trans hs)]
        exact hbefore (n + 1) (Nat.succ_lt_succ hn)

theorem reframe_restore (hin : t.inputs = []) (f : Bool) (tr : List Event) :
    { reframe t f tr [] with faultHostConflict := t.faultHostConflict, trace := t.trace } = t := by
  cases t
  cases hin
  rfl

/-- Settles O19: the run without the words, step by step, and the same steps with the words between them. -/
theorem conflictingWordsDoNotDisturbARefresh : Obligations.ConflictingWordsDoNotDisturbARefresh := by
  intro s t ins hi hpc hbefore hrun hl hend
  have h : RefreshRun ins { s with inputs := [] } t := .of_runs hi rfl hpc hbefore hrun fun _ => hend
  obtain ⟨tr, hmixed, htr⟩ := h.runs_mixed hi s.faultHostConflict ⟨rfl, fun _ => rfl⟩
  exact ⟨_, hmixed, reframe_restore h.inputs_eq _ _, htr.others, rfl, htr.ended⟩

end Sys2Proof.Machine
end

section
/-! PROOFS. Reset and hazards (70_reset_and_hazards.md): power-on, the mandatory barriers of the program, and that a
timeout bounds every refresh, whatever BUSY reads. -/

namespace Sys2Proof.Machine

/-! ### Power-on (R801) -/

/-- Settles O54: the step is power-on, and only it. -/
theorem powerCycleResetsTheBlock : Obligations.PowerCycleResetsTheBlock := by
  intro s rest hi hin
  exact ⟨_, step_power hi hin, rfl, rfl, rfl, rfl, rfl, rfl, rfl, rfl, rfl, rfl, rfl⟩

/-! ### The mandatory barriers (R807, R808) -/

/-- Settles O31: the frames of the program, cut at its barriers; what is left are the idle setup and frames. -/
theorem programHasItsFourBarriers : Obligations.ProgramHasItsFourBarriers := by
  intro c m
  refine ⟨idle ++ [.w .rst .high], [],
    send 0x11 [0x01] ++ send 0x44 [0x00, 0x18] ++ send 0x45 [0x27, 0x01, 0x00, 0x00] ++ send 0x22 [0xB1],
    send 0x4E [0x00] ++ send 0x4F [0x27, 0x01] ++ streamFrame 0x24 (streamRows c m) ++ send 0x4E [0x00] ++
      send 0x4F [0x27, 0x01] ++ streamFrame 0x26 (streamRows c m) ++ send 0x22 [0xC7],
    send 0x10 [0x01], by simp [program_eq_frames], fun op hop => ?_, ?_⟩
  · refine (isWrite_iff op).mp (List.all_eq_true.mp ?_ op hop)
    simp only [List.all_append, send_writes, streamFrame_writes]
    decide
  · intro op hop l
    cases l with
    | low => exact .inl fun h => absurd (h ▸ hop) (by decide)
    | high => exact .inr rfl

/-! ### A refresh that ends

The induction runs over the micro-ops left and, at a barrier, over the polls the timeout still allows. -/

/-- The interval of a barrier. -/
def MicroOp.interval? : MicroOp → Option Nat
  | .w _ _ => none
  | .d _ => none
  | .b iv => some iv

/-- The intervals of the barriers of a list, in order. -/
def intervals (ms : List MicroOp) : List Nat := ms.filterMap MicroOp.interval?

/-- The most polls that barriers of these intervals make before the timeout T: ceil(T / iv) each (R569). -/
def maxPolls (T : Nat) (ivs : List Nat) : Nat := (ivs.map fun iv => (T + iv - 1) / iv).sum

@[simp] theorem intervals_barrier (iv : Nat) (ms : List MicroOp) : intervals (.b iv :: ms) = iv :: intervals ms := rfl

@[simp] theorem maxPolls_nil (T : Nat) : maxPolls T [] = 0 := rfl

@[simp] theorem maxPolls_cons (T iv : Nat) (ivs : List Nat) :
    maxPolls T (iv :: ivs) = (T + iv - 1) / iv + maxPolls T ivs := rfl

/-- The four barriers of the program (R808). -/
theorem intervals_program (c : Cfg) (m : Memory) : intervals (program c m) = [10, 10, 50, 50] := by
  have hnone : ∀ op : MicroOp, (if !op.isWrite then op.interval? else none) = op.interval? := by
    intro op
    cases op <;> rfl
  have h := congrArg (List.filterMap MicroOp.interval?) (program_filter_not_isWrite c m)
  simp only [List.filterMap_filter, hnone] at h
  exact h

/-- The refresh of `s` ends: with one step for each of `ops` micro-ops, one for each of `polls` polls and one more; with
an event for each micro-op, two for each poll and the response; with OK after `lows` LOW reads, else with
PANEL_UNRESPONSIVE after fewer (R568, R569). -/
def EndsWithin (ops polls lows : Nat) (s : State) : Prop :=
  ∃ n t, n ≤ ops + polls + 1 ∧ runs n s = .next t ∧ t.life = .ready ∧
    t.trace.length ≤ s.trace.length + ops + 2 * polls + 1 ∧
    (t.trace.head? = some (.resp opRefresh .ok 0) ∧ t.trace.count (.rd .low) = s.trace.count (.rd .low) + lows ∨
      t.trace.head? = some (.resp opRefresh .panelUnresponsive 0) ∧
        t.trace.count (.rd .low) < s.trace.count (.rd .low) + lows)

/-- What is left of a refresh with the timeout T: the micro-ops from UPC on. -/
structure Remains (T : Nat) (ms : List MicroOp) (s : State) : Prop where
  undisturbed : Undisturbed s
  timeout : s.cfg.busyTimeout = some T
  rest : s.prog.drop s.upc = ms
  bound : s.upc ≤ s.prog.length

section
variable {T ops polls lows iv : Nat} {m : MicroOp} {ms : List MicroOp} {s r : State}

/-- The last step responds OK. -/
theorem EndsWithin.finish (hs : step s = .next (endRefresh .ok s)) : EndsWithin 0 0 0 s :=
  ⟨1, _, Nat.le_refl _, run_one hs, rfl, Nat.le_refl _, .inl ⟨rfl, by simp⟩⟩

/-- A timeout responds PANEL_UNRESPONSIVE, a LOW read short. -/
theorem EndsWithin.timeout (hb : nextBusy s = .high)
    (hs : step s = .next (endRefresh .panelUnresponsive (busyRead s))) :
    EndsWithin (ops + 1) polls (lows + 1) s := by
  refine ⟨1, _, by omega, run_one hs, rfl, ?_, .inr ⟨rfl, by simp [hb]⟩⟩
  simp only [endRefresh_trace, busyRead_trace, List.length_cons]
  omega

/-- A micro-op that is done. -/
theorem EndsWithin.op {e : Event} (hs : step s = .next r) (hr : r.trace = e :: s.trace)
    (h : EndsWithin ops polls lows r) :
    EndsWithin (ops + 1) polls (lows + [e].count (.rd .low)) s := by
  obtain ⟨n, t, hn, hrun, hl, hlen, hend⟩ := h
  rw [hr, List.length_cons] at hlen
  rw [hr, ← List.singleton_append, List.count_append] at hend
  refine ⟨n + 1, t, by omega, (run_succ n hs).trans hrun, hl, by omega, ?_⟩
  rwa [Nat.add_comm lows, ← Nat.add_assoc, Nat.add_comm (s.trace.count _)]

theorem EndsWithin.mono {polls' : Nat} (h : EndsWithin ops polls lows s) (hp : polls ≤ polls') :
    EndsWithin ops polls' lows s := by
  obtain ⟨n, t, hn, hrun, hl, hlen, hend⟩ := h
  exact ⟨n, t, by omega, hrun, hl, by omega, hend⟩

/-- A poll. -/
theorem EndsWithin.poll (hs : step s = .next r) (hr : r.trace = .dly iv :: .rd .high :: s.trace)
    (h : EndsWithin ops polls lows r) : EndsWithin ops (polls + 1) lows s := by
  obtain ⟨n, t, hn, hrun, hl, hlen, hend⟩ := h
  have hcount : r.trace.count (.rd .low) = s.trace.count (.rd .low) := by simp [hr]
  rw [hr, List.length_cons, List.length_cons] at hlen
  rw [hcount] at hend
  exact ⟨n + 1, t, by omega, (run_succ n hs).trans hrun, hl, by omega, hend⟩

/-- UPC moves past its micro-op; the BUSY levels, ELAPSED and TRACE may be anything. -/
theorem Remains.advance (h : Remains T (m :: ms) s) (hr : Undisturbed r) (hc : r.cfg = s.cfg) (hp : r.prog = s.prog)
    (hu : r.upc = s.upc + 1) : Remains T ms r where
  undisturbed := hr
  timeout := by rw [hc, h.timeout]
  rest := by rw [hp, hu, drop_succ_of_drop h.rest]
  bound := by
    rw [hp, hu]
    exact (List.getElem?_eq_some_iff.mp (getElem?_of_drop h.rest)).1

theorem Undisturbed.busyRead (h : Undisturbed s) : Undisturbed (busyRead s) := ⟨h.issue, h.inputs, h.life, h.dir⟩

theorem Undisturbed.barrierPass (h : Undisturbed s) : Undisturbed (barrierPass s) :=
  ⟨h.issue, h.inputs, h.life, h.dir⟩

theorem Undisturbed.barrierPoll (iv : Nat) (h : Undisturbed s) : Undisturbed (barrierPoll iv s) :=
  ⟨h.issue, h.inputs, h.life, h.dir⟩

theorem Remains.straight (h : Remains T (m :: ms) s) : Remains T ms (afterStraight [m] s) :=
  h.advance (h.undisturbed.afterStraight [m]) rfl rfl rfl

theorem Remains.pass (h : Remains T (m :: ms) s) : Remains T ms (barrierPass (busyRead s)) :=
  h.advance h.undisturbed.busyRead.barrierPass rfl rfl rfl

theorem Remains.poll (h : Remains T ms s) : Remains T ms (barrierPoll iv (busyRead s)) :=
  ⟨h.undisturbed.busyRead.barrierPoll iv, h.timeout, h.rest, h.bound⟩

theorem Remains.step_eq (h : Remains T (m :: ms) s) : step s = microStep m s := by
  rw [step_undisturbed h.undisturbed, sequencerStep_at (getElem?_of_drop h.rest)]

theorem Remains.upc_eq_length (h : Remains T [] s) : s.upc = s.prog.length :=
  Nat.le_antisymm h.bound (List.drop_eq_nil_iff.mp h.rest)

/-- A pin write or a delay, and then the rest. -/
theorem Remains.straight_endsWithin (h : Remains T (m :: ms) s) (hm : m.straight = true)
    (hrest : ∀ r, Remains T ms r → r.elapsed = s.elapsed → EndsWithin ops polls lows r) :
    EndsWithin (ops + 1) polls lows s := by
  have hs : step s = .next (afterStraight [m] s) := by rw [h.step_eq, microStep_straight hm h.undisturbed.dir]
  have hr := hrest _ h.straight rfl
  cases m with
  | w p l => exact .op (e := .wr p l) hs rfl hr
  | d n => exact .op (e := .dly n) hs rfl hr
  | b iv => cases hm

/-- A barrier passes, ends the refresh at its timeout, or polls before it (R556, R569). -/
theorem Remains.barrier_cases (h : Remains T (.b iv :: ms) s) :
    nextBusy s = .low ∧ step s = .next (barrierPass (busyRead s)) ∨
    nextBusy s = .high ∧ step s = .next (endRefresh .panelUnresponsive (busyRead s)) ∨
    nextBusy s = .high ∧ s.elapsed < T ∧ step s = .next (barrierPoll iv (busyRead s)) := by
  have hs : step s = barrier iv s := h.step_eq
  have hdir := h.undisturbed.dir
  cases hb : nextBusy s with
  | low => exact .inl ⟨rfl, hs.trans (barrier_low hdir hb)⟩
  | high =>
    by_cases hT : T ≤ s.elapsed
    · have ht := (timedOut_iff s).mpr ⟨T, h.timeout, hT⟩
      exact .inr (.inl ⟨rfl, hs.trans (barrier_timeout hdir hb ht)⟩)
    · have ht : timedOut s = false := by simp [timedOut, h.timeout, hT]
      exact .inr (.inr ⟨rfl, Nat.lt_of_not_le hT, hs.trans (barrier_high hdir hb ht)⟩)

/-- A barrier whose ELAPSED reaches T within `k` polls, and then the rest. -/
theorem Remains.barrier_endsWithin {k : Nat} (h : Remains T (.b iv :: ms) s) (hk : T ≤ s.elapsed + k * iv)
    (hrest : ∀ r, Remains T ms r → r.elapsed = 0 → EndsWithin ops polls lows r) :
    EndsWithin (ops + 1) (polls + k) (lows + 1) s := by
  induction k using Nat.strongRecOn generalizing s with
  | ind k ih =>
    rcases h.barrier_cases with ⟨hb, hs⟩ | ⟨hb, hs⟩ | ⟨hb, hlt, hs⟩
    · exact .op (e := .rd .low) hs (by simp [hb]) ((hrest _ h.pass rfl).mono (Nat.le_add_right _ _))
    · exact .timeout hb hs
    · obtain ⟨j, rfl⟩ : ∃ j, k = j + 1 := Nat.exists_eq_succ_of_ne_zero (by rintro rfl; omega)
      refine .poll (iv := iv) hs (by simp [hb]) (ih j (Nat.lt_succ_self j) h.poll ?_)
      rw [Nat.succ_mul] at hk
      simp only [barrierPoll_elapsed, busyRead_elapsed]
      omega

/-- What is left of a refresh ends, whatever BUSY reads (R815). -/
theorem Remains.endsWithin (h : Remains T ms s) (he : s.elapsed = 0) (hpos : ∀ iv ∈ intervals ms, 0 < iv) :
    EndsWithin ms.length (maxPolls T (intervals ms)) (intervals ms).length s := by
  induction ms generalizing s with
  | nil =>
    refine .finish ?_
    rw [step_undisturbed h.undisturbed, sequencerStep_end h.upc_eq_length]
  | cons m ms ih =>
    cases m with
    | w p l | d n =>
      exact h.straight_endsWithin rfl fun r hr hre => ih hr (hre.trans he) hpos
    | b iv =>
      rw [intervals_barrier] at hpos ⊢
      obtain ⟨hiv, hpos⟩ := List.forall_mem_cons.mp hpos
      rw [maxPolls_cons, Nat.add_comm]
      refine h.barrier_endsWithin ?_ fun r hr hre => ih hr hre hpos
      rw [he, Nat.zero_add]
      exact (ceil_le_iff_le_polls hiv).mp (Nat.le_refl _)

end

/-- Settles O30: what is left at the start is the program, with its four barriers. -/
theorem refreshWithTimeoutEnds : Obligations.RefreshWithTimeoutEnds := by
  intro s T hinv hl hu hin hT
  obtain ⟨hprog, hbound⟩ := hinv.running hl
  have hdir : s.dir = Dirs.claimed := by simpa [hl, Life.claims] using hinv.directions
  have helapsed : s.elapsed = 0 := by
    refine hinv.elapsed_eq_zero (m := .w .din .high) ?_ rfl
    simp [hu, hprog, program_eq_frames, idle]
  have hremains : Remains T s.prog s := ⟨⟨hinv.noIssue, hin, hl, hdir⟩, hT, by rw [hu, List.drop_zero], hbound⟩
  have hivs : intervals s.prog = [10, 10, 50, 50] := by rw [hprog, intervals_program]
  have hlen : 4 ≤ s.prog.length := by
    rw [hprog, program_length]
    omega
  obtain ⟨n, t, hn, hrun, hready, htrace, hend⟩ := hremains.endsWithin helapsed (by simp [hivs])
  simp only [hivs, maxPolls_cons, maxPolls_nil] at hn htrace hend
  exact ⟨n, t, by omega, hrun, hready, by omega, hend⟩

end Sys2Proof.Machine
end
